-- ==== Sys2Proof/Word.lean ====
section
/-! DEFINITION. The words of the machine (spec 00_scope.md R6, R7): bytes, register numbers, addresses, vectors.
Bit 0 is the least significant bit of every word (R6). -/

namespace Sys2Proof

/-- The addressable unit (R35). -/
abbrev Byte := BitVec 8

/-- A register number as the encoding gives it, 4 bits (R64). -/
abbrev RegNum := BitVec 4

/-- A general register, `rip`, or an address (R17, R18, R35). -/
abbrev Addr := BitVec 64

/-- A 32-bit element of a vector (R7); its bits are never interpreted (R93). -/
abbrev Elem := BitVec 32

/-- A 128-bit lane (R7). -/
abbrev Lane := BitVec 128

/-- A whole vector register: `VLMAX` is 256 (R5, decision D2). -/
abbrev Vec := BitVec 256

end Sys2Proof
end

