-- ==== Sys2Proof/Config.lean ====
section
/-! DEFINITION. What the spec leaves to the processor or to the claim (spec 00_scope.md R5): the operating modes, the
parameters a claim names or quantifies over, and the free values (opaque, without a body). -/

namespace Sys2Proof

/-- The operating mode (R5, R25). -/
inductive Mode where
  | mode64
  | mode32
  | modeReal
  | modeV86
  | mode16
  deriving DecidableEq, Repr

/-- What a translation is asked for (R42). -/
inductive AccessKind where
  | read
  | fetch
  deriving DecidableEq, Repr

/-- The parameter `LINBITS` (R5, R40, D11): 48, or 57 with 5-level paging. -/
inductive LinBits where
  | b48
  | b57
  deriving DecidableEq, Repr

/-- The number of implemented linear-address bits. -/
def LinBits.width : LinBits → Nat
  | .b48 => 48
  | .b57 => 57

/-- The parameter `AC_POLICY` (R5, R44, D6). -/
inductive AcPolicy where
  | never
  | mayFault
  | always
  deriving DecidableEq, Repr

/-- The fixed properties of the processor that a claim names or quantifies over (R5). They stand in `State` because a
step's only argument is the state; no step writes them. -/
structure Params where
  cpuidAvx : Bool
  linBits  : LinBits
  acPolicy : AcPolicy
  deriving DecidableEq, Repr

/-- FREE VALUE (R44, `MayFault`): whether the misaligned operand of step number `tick` raises `#AC`. -/
opaque Config.alignDraw : Nat → Bool

/-- FREE VALUE (R45, U18): which of the admitted faulting addresses step number `tick` reports. -/
opaque Config.pageFaultDraw : Nat → Nat

/-- FREE VALUE (R46, U20): the moment of a concurrent writer that byte `k` of the operand of step number `tick` observes. -/
opaque Config.tearDraw : Nat → Nat → Nat

end Sys2Proof
end

