-- ==== Sys2Proof/Syntax.lean ====
section
/-! DEFINITION. The four forms of VPERMILPS as syntax (spec 00_scope.md R2, 30_encoding.md R55 to R74): one constructor
per row of spec/opcode_table.json, and the shapes of the `r/m` operand. -/

namespace Sys2Proof

/-- The six segment registers (R19). -/
inductive Seg where
  | es
  | cs
  | ss
  | ds
  | fs
  | gs
  deriving DecidableEq, Repr

/-- The legacy prefixes an accepted encoding may carry: at most one segment override and at most one `67H` (R56, D27). -/
structure Prefixes where
  seg    : Option Seg
  addr67 : Bool
  deriving DecidableEq, Repr

/-- The displacement after ModRM or SIB by `mod`: none, `disp8`, `disp32` (R68, R70). -/
inductive Disp where
  | none
  | d8 (d : BitVec 8)
  | d32 (d : BitVec 32)
  deriving DecidableEq, Repr

/-- The index part of a SIB byte: register and scale exponent (R69). -/
structure Index where
  reg   : RegNum
  scale : BitVec 2
  deriving DecidableEq, Repr

/-- The addressing forms of a memory operand (R68, R69, R71). -/
inductive MemForm where
  /-- `g(B ++ rm)` plus a displacement. -/
  | base (reg : RegNum) (disp : Disp)
  /-- The SIB form with a base register. -/
  | sib (base : RegNum) (index : Option Index) (disp : Disp)
  /-- The SIB form without a base (`SIB.base = 101b`, `mod = 00b`). -/
  | sibNoBase (index : Option Index) (disp : BitVec 32)
  /-- `mod = 00b`, `rm = 101b` in `Mode64`: RIP-relative. -/
  | ripRel (disp : BitVec 32)
  /-- `mod = 00b`, `rm = 101b` outside `Mode64`: the displacement alone. -/
  | abs32 (disp : BitVec 32)
  deriving DecidableEq, Repr

/-- The `ModRM:r/m` operand: a vector register (`mod = 11b`) or a memory location (R63). -/
inductive Rm where
  | reg (r : RegNum)
  | mem (m : MemForm)
  deriving DecidableEq, Repr

/-- The width of a form, `VEX.L` (R77). -/
inductive Width where
  | w128
  | w256
  deriving DecidableEq, Repr

/-- The width of the form's memory operand in bytes (R36). -/
def Width.bytes : Width → Nat
  | .w128 => 16
  | .w256 => 32

/-- The four forms (R2), in the order of the opcode table's rows. -/
inductive Instr where
  /-- `VPERMILPS xmm1, xmm2, xmm3/m128` (R87). -/
  | var128 (p : Prefixes) (dst src1 : RegNum) (rm : Rm)
  /-- `VPERMILPS xmm1, xmm2/m128, imm8` (R88). -/
  | imm128 (p : Prefixes) (dst : RegNum) (rm : Rm) (imm : BitVec 8)
  /-- `VPERMILPS ymm1, ymm2, ymm3/m256` (R89). -/
  | var256 (p : Prefixes) (dst src1 : RegNum) (rm : Rm)
  /-- `VPERMILPS ymm1, ymm2/m256, imm8` (R90). -/
  | imm256 (p : Prefixes) (dst : RegNum) (rm : Rm) (imm : BitVec 8)
  deriving DecidableEq, Repr

/-- The legacy prefixes of an instruction. -/
def Instr.prefixes : Instr → Prefixes
  | .var128 p _ _ _ => p
  | .imm128 p _ _ _ => p
  | .var256 p _ _ _ => p
  | .imm256 p _ _ _ => p

/-- Operand 1, `ModRM:reg` (R16). -/
def Instr.dst : Instr → RegNum
  | .var128 _ d _ _ => d
  | .imm128 _ d _ _ => d
  | .var256 _ d _ _ => d
  | .imm256 _ d _ _ => d

/-- The `ModRM:r/m` operand (R16). -/
def Instr.rm : Instr → Rm
  | .var128 _ _ _ m => m
  | .imm128 _ _ m _ => m
  | .var256 _ _ _ m => m
  | .imm256 _ _ m _ => m

/-- The width of the form (R2). -/
def Instr.width : Instr → Width
  | .var128 _ _ _ _ => .w128
  | .imm128 _ _ _ _ => .w128
  | .var256 _ _ _ _ => .w256
  | .imm256 _ _ _ _ => .w256

/-- The register that `VEX.vvvv` names: operand 2 of row RVM, none in row RMI (R65, R66). -/
def Instr.vvvv : Instr → Option RegNum
  | .var128 _ _ v _ => some v
  | .imm128 _ _ _ _ => none
  | .var256 _ _ v _ => some v
  | .imm256 _ _ _ _ => none

/-- The immediate byte of row RMI (R67). -/
def Instr.imm8 : Instr → Option (BitVec 8)
  | .var128 _ _ _ _ => none
  | .imm128 _ _ _ b => some b
  | .var256 _ _ _ _ => none
  | .imm256 _ _ _ b => some b

/-- The operand is a memory location (`mod != 11b`, R36). -/
def Rm.isMem : Rm → Bool
  | .reg _ => false
  | .mem _ => true

end Sys2Proof
end

