-- ==== Sys2Proof/WellFormed.lean ====
section
/-! DEFINITION. Which syntax terms have an encoding in a mode (spec 30_encoding.md R61, R64, R68, R69): the checks on
register numbers and addressing forms. Modes other than `Mode64` use `Mode32`'s rules (R79). -/

namespace Sys2Proof

/-- A register number the mode can name: 0 to 15 in `Mode64`, 0 to 7 otherwise (R5, R61, R64). -/
def RegNum.fits (m : Mode) (r : RegNum) : Bool :=
  m = .mode64 || r.toNat < 8

/-- The low three bits of a register number are `b`. -/
def RegNum.lowIs (r : RegNum) (b : BitVec 3) : Bool :=
  r.extractLsb' 0 3 = b

/-- An index register: any number of the mode but `0100b`, which says that there is no index (R69). -/
def Index.fits (m : Mode) (i : Index) : Bool :=
  i.reg ≠ 4#4 && i.reg.fits m

/-- An absent index fits every mode. -/
def Index.optionFits (m : Mode) : Option Index → Bool
  | .none => true
  | .some i => i.fits m

/-- The addressing form has an encoding in the mode (R68, R69, R71). -/
def MemForm.fits (m : Mode) : MemForm → Bool
  | .base r d => r.fits m && !r.lowIs 4#3 && !(d = .none && r.lowIs 5#3)
  | .sib b i d => b.fits m && Index.optionFits m i && !(d = .none && b.lowIs 5#3)
  | .sibNoBase i _ => Index.optionFits m i
  | .ripRel _ => m = .mode64
  | .abs32 _ => m ≠ .mode64

/-- The `r/m` operand has an encoding in the mode. -/
def Rm.fits (m : Mode) : Rm → Bool
  | .reg r => r.fits m
  | .mem f => f.fits m

/-- The instruction has an encoding in the mode. -/
def Instr.fits (m : Mode) (i : Instr) : Bool :=
  i.dst.fits m && i.rm.fits m && (match i.vvvv with | .some v => v.fits m | .none => true)

/-- A memory operand under the 16-bit address size of `Mode32`'s `67H` prefix, which the spec refuses (R73, R79 step 5g). -/
def Instr.addr16 (m : Mode) (i : Instr) : Bool :=
  m = .mode32 && i.prefixes.addr67 && i.rm.isMem

/-- The instruction is one the decoder can answer in the mode (R79): it fits, the mode is not `Mode16`, and the address
size is not 16. -/
def Instr.wf (m : Mode) (i : Instr) : Bool :=
  i.fits m && m ≠ .mode16 && !i.addr16 m

end Sys2Proof
end

