-- ==== Sys2Proof/Decode.lean ====
section
/-! DEFINITION. The decoder of spec 30_encoding.md R79, total on any bytes, and after it the encoder, written from the
same tables (R55 to R74). Bytes are listed in address order. -/

namespace Sys2Proof

/-- The refusal reasons the decoder raises (R10, R79). -/
inductive DecodeRefusal where
  | prefixForm
  | mode32HighBit
  | mode16
  | addrSize16
  | tooLong
  deriving DecidableEq, Repr

/-- The decoder's verdict (R79). `short` says that the bytes given end before the verdict is known, so that the next
byte's fetch decides the step (R112). A refusal carries the instruction's length where it is known, else 0. -/
inductive Verdict where
  | form (i : Instr)
  | ud (len : Nat)
  | refuse (r : DecodeRefusal) (len : Nat)
  | notVpermilps
  | short
  deriving DecidableEq, Repr

/-! ### Lengths (R74) -/

/-- `npfx` of an accepted encoding. -/
def Prefixes.len (p : Prefixes) : Nat :=
  (if p.seg.isSome then 1 else 0) + (if p.addr67 then 1 else 0)

/-- Bytes of a displacement. -/
def Disp.len : Disp → Nat
  | .none => 0
  | .d8 _ => 1
  | .d32 _ => 4

/-- `nsib + ndisp` of the operand. -/
def Rm.extraLen : Rm → Nat
  | .reg _ => 0
  | .mem (.base _ d) => d.len
  | .mem (.sib _ _ d) => 1 + d.len
  | .mem (.sibNoBase _ _) => 5
  | .mem (.ripRel _) => 4
  | .mem (.abs32 _) => 4

/-- `nimm`. -/
def Instr.immLen (i : Instr) : Nat :=
  if i.imm8.isSome then 1 else 0

/-- `ILEN = npfx + 3 + 1 + 1 + nsib + ndisp + nimm` (R74). -/
def Instr.ilen (i : Instr) : Nat :=
  i.prefixes.len + 3 + 1 + 1 + i.rm.extraLen + i.immLen

/-! ### Legacy prefixes (R56, R79 step 1) -/

/-- The segment an override byte names. -/
def segOfByte (b : Byte) : Option Seg :=
  if b = 0x26#8 then some .es
  else if b = 0x2E#8 then some .cs
  else if b = 0x36#8 then some .ss
  else if b = 0x3E#8 then some .ds
  else if b = 0x64#8 then some .fs
  else if b = 0x65#8 then some .gs
  else none

/-- LOCK, operand size, REPNE, REP: they make the encoding `UD`. -/
def isForbidden (b : Byte) : Bool :=
  b = 0xF0#8 || b = 0x66#8 || b = 0xF2#8 || b = 0xF3#8

/-- `40H` to `4FH`. -/
def isRex (b : Byte) : Bool :=
  b.extractLsb' 4 4 = 4#4

/-- One of the prefix bytes named before REX in R79 step 1. -/
def isLegacy (b : Byte) : Bool :=
  (segOfByte b).isSome || b = 0x67#8 || isForbidden b

/-- A byte of R56's table of prefixes, as it is met after a REX byte in `Mode64`: REX bytes are of the table too (log
entry 22). -/
def isPrefix64 (b : Byte) : Bool := isLegacy b || isRex b

/-- What step 1 has seen so far, and how many prefix bytes. -/
structure Scan where
  seg    : Option Seg
  addr67 : Bool
  bad    : Bool
  rex    : Bool
  count  : Nat
  deriving DecidableEq, Repr

/-- Nothing seen. -/
def Scan.start : Scan :=
  { seg := none, addr67 := false, bad := false, rex := false, count := 0 }

/-- The outcome of step 1: the first byte that is no prefix and all after it, or a verdict. -/
inductive ScanResult where
  | done (a : Scan) (rest : List Byte)
  | stop (v : Verdict)
  deriving DecidableEq, Repr

/-- R79 step 1. -/
def scanPrefixes (m : Mode) (a : Scan) : List Byte → ScanResult
  | [] => .stop .short
  | b :: bs =>
    match segOfByte b with
    | some g =>
      if a.seg.isSome then .stop (.refuse .prefixForm 0)
      else scanPrefixes m { a with seg := some g, count := a.count + 1 } bs
    | none =>
      if b = 0x67#8 then
        if a.addr67 then .stop (.refuse .prefixForm 0)
        else scanPrefixes m { a with addr67 := true, count := a.count + 1 } bs
      else if isForbidden b then scanPrefixes m { a with bad := true, count := a.count + 1 } bs
      else if m = .mode64 && isRex b then
        match bs.head? with
        | none => .stop .short
        | some c =>
          if c = 0xC4#8 then scanPrefixes m { a with rex := true, count := a.count + 1 } bs
          else if isPrefix64 c then .stop (.refuse .prefixForm 0)
          else .stop .notVpermilps
      else .done a (b :: bs)

/-! ### ModRM, SIB, displacement (R63, R64, R68 to R70) -/

/-- `disp32`, least significant byte first (R70). -/
def takeDisp32 : List Byte → Option (BitVec 32 × List Byte)
  | d0 :: d1 :: d2 :: d3 :: t => some (d3 ++ d2 ++ d1 ++ d0, t)
  | _ => none

/-- The displacement that `mod` (not `11b`) calls for. -/
def takeDisp (md : BitVec 2) (t : List Byte) : Option (Disp × List Byte) :=
  if md = 0#2 then some (.none, t)
  else if md = 1#2 then
    match t with
    | d :: t => some (.d8 d, t)
    | [] => none
  else (takeDisp32 t).map fun (d, t) => (.d32 d, t)

/-- The index of a SIB byte: none when `X = 0` and the field is `100b` (R69). -/
def indexOf (x : BitVec 1) (sib : Byte) : Option Index :=
  let reg : RegNum := x ++ sib.extractLsb' 3 3
  if reg = 4#4 then none else some { reg := reg, scale := sib.extractLsb' 6 2 }

/-- The SIB form (R69). -/
def takeSib (md : BitVec 2) (x b : BitVec 1) : List Byte → Option (Rm × List Byte)
  | [] => none
  | sib :: t =>
    if sib.extractLsb' 0 3 = 5#3 && md = 0#2 then
      (takeDisp32 t).map fun (d, t) => (.mem (.sibNoBase (indexOf x sib) d), t)
    else
      (takeDisp md t).map fun (d, t) => (.mem (.sib (b ++ sib.extractLsb' 0 3) (indexOf x sib) d), t)

/-- The `r/m` operand that the ModRM byte and the bytes after it give (R68), with `X` and `B` of `P1`. -/
def takeRm (m : Mode) (x b : BitVec 1) (modrm : Byte) (t : List Byte) : Option (Rm × List Byte) :=
  let md := modrm.extractLsb' 6 2
  let rm := modrm.extractLsb' 0 3
  if md = 3#2 then some (.reg (b ++ rm), t)
  else if rm = 4#3 then takeSib md x b t
  else if md = 0#2 && rm = 5#3 then
    (takeDisp32 t).map fun (d, t) => (.mem (if m = .mode64 then .ripRel d else .abs32 d), t)
  else (takeDisp md t).map fun (d, t) => (.mem (.base (b ++ rm) d), t)

/-! ### The VEX prefix, the opcode, the verdict (R57 to R62, R75 to R79) -/

/-- Operand row RVM or RMI, by map and opcode byte (R59, R62); none: another instruction (R78). -/
inductive Row where
  | rvm
  | rmi
  deriving DecidableEq, Repr

/-- The row that `mmmmm` and the opcode byte select. -/
def rowOf (p1 op : Byte) : Option Row :=
  if p1.extractLsb' 0 5 = 2#5 && op = 0x0C#8 then some .rvm
  else if p1.extractLsb' 0 5 = 3#5 && op = 0x04#8 then some .rmi
  else none

/-- The form from its row and width with its operands (R79 step 5h). -/
def buildInstr (row : Row) (w : Width) (p : Prefixes) (dst v : RegNum) (rm : Rm) (imm : BitVec 8) : Instr :=
  match row, w with
  | .rvm, .w128 => .var128 p dst v rm
  | .rvm, .w256 => .var256 p dst v rm
  | .rmi, .w128 => .imm128 p dst rm imm
  | .rmi, .w256 => .imm256 p dst rm imm

/-- The width that `VEX.L` selects (R77). -/
def widthOf (p2 : Byte) : Width :=
  if p2.extractLsb' 2 1 = 0#1 then .w128 else .w256

/-- R79 steps 5c to 5h, once the operand bytes are parsed; `len` is `ILEN`. -/
def judge (m : Mode) (a : Scan) (p1 p2 : Byte) (row : Row) (len : Nat) (i : Instr) : Verdict :=
  if 15 < len then .refuse .tooLong len
  else if m ≠ .mode64 && (p1.extractLsb' 5 1 = 0#1 || p2.extractLsb' 6 1 = 0#1) then .refuse .mode32HighBit len
  else if a.bad || a.rex then .ud len
  else if p2.extractLsb' 7 1 = 1#1 then .ud len
  else if row = .rmi && p2.extractLsb' 3 4 ≠ 15#4 then .ud len
  else if i.addr16 m then .refuse .addrSize16 len
  else .form i

/-- The immediate byte of row RMI (R67); row RVM has none. -/
def takeImm (row : Row) (t : List Byte) : Option (BitVec 8) :=
  match row with
  | .rvm => some 0#8
  | .rmi => t.head?

/-- R79 step 5b: ModRM, SIB, displacement and immediate, then the verdict. -/
def decodeOperands (m : Mode) (a : Scan) (p1 p2 : Byte) (row : Row) : List Byte → Verdict
  | [] => .short
  | modrm :: t =>
    match takeRm m (~~~(p1.extractLsb' 6 1)) (~~~(p1.extractLsb' 5 1)) modrm t with
    | none => .short
    | some (rm, t) =>
      match takeImm row t with
      | none => .short
      | some imm =>
        let dst : RegNum := ~~~(p1.extractLsb' 7 1) ++ modrm.extractLsb' 3 3
        let v : RegNum := ~~~(p2.extractLsb' 3 4)
        let i := buildInstr row (widthOf p2) { seg := a.seg, addr67 := a.addr67 } dst v rm imm
        judge m a p1 p2 row (a.count + 3 + 1 + 1 + rm.extraLen + i.immLen) i

/-- R79 steps 3 to 5a, on the bytes after `C4H`. -/
def decodeVex (m : Mode) (a : Scan) : List Byte → Verdict
  | p1 :: p2 :: op :: t =>
    if m ≠ .mode64 && p1.extractLsb' 6 2 ≠ 3#2 then .notVpermilps
    else
      match rowOf p1 op with
      | none => .notVpermilps
      | some row =>
        if p2.extractLsb' 0 2 ≠ 1#2 then .notVpermilps
        else if m = .mode16 then .refuse .mode16 0
        else decodeOperands m a p1 p2 row t
  | _ => .short

/-- R79: the verdict on the bytes at `rip`. -/
def decode (m : Mode) (bytes : List Byte) : Verdict :=
  match scanPrefixes m Scan.start bytes with
  | .stop v => v
  | .done _ [] => .short
  | .done a (b :: t) => if b = 0xC4#8 then decodeVex m a t else .notVpermilps

/-! ### The encoder (R55 to R70) -/

/-- The override byte of a segment (R56). -/
def Seg.byte : Seg → Byte
  | .es => 0x26#8
  | .cs => 0x2E#8
  | .ss => 0x36#8
  | .ds => 0x3E#8
  | .fs => 0x64#8
  | .gs => 0x65#8

/-- The prefix bytes, the segment override first (either order means the same, R56). -/
def Prefixes.bytes (p : Prefixes) : List Byte :=
  (match p.seg with | some g => [g.byte] | none => []) ++ (if p.addr67 then [0x67#8] else [])

/-- The bytes of a `disp32`, least significant first (R70). -/
def disp32Bytes (d : BitVec 32) : List Byte :=
  [d.extractLsb' 0 8, d.extractLsb' 8 8, d.extractLsb' 16 8, d.extractLsb' 24 8]

/-- The bytes of a displacement. -/
def Disp.bytes : Disp → List Byte
  | .none => []
  | .d8 d => [d]
  | .d32 d => disp32Bytes d

/-- The `mod` field that calls for a displacement (R68). -/
def Disp.mod : Disp → BitVec 2
  | .none => 0#2
  | .d8 _ => 1#2
  | .d32 _ => 2#2

/-- The high bit of a register number, carried by `R`, `X` or `B` (R57). -/
def RegNum.hi (r : RegNum) : BitVec 1 := r.extractLsb' 3 1

/-- The low three bits of a register number, carried by ModRM or SIB. -/
def RegNum.low (r : RegNum) : BitVec 3 := r.extractLsb' 0 3

/-- The fields of the `r/m` operand: `X`, `B`, `mod`, `rm`, and the bytes after ModRM. -/
structure RmFields where
  x    : BitVec 1
  b    : BitVec 1
  md   : BitVec 2
  rm   : BitVec 3
  tail : List Byte
  deriving DecidableEq, Repr

/-- `X` of an index. -/
def Index.x : Option Index → BitVec 1
  | .none => 0#1
  | .some i => i.reg.hi

/-- The SIB byte of an index and the base field (R69). -/
def Index.sibByte (i : Option Index) (base : BitVec 3) : Byte :=
  match i with
  | .none => 0#2 ++ 4#3 ++ base
  | .some i => i.scale ++ i.reg.low ++ base

/-- The fields that encode an `r/m` operand (R63, R64, R68, R69, R71). -/
def Rm.fields : Rm → RmFields
  | .reg r => { x := 0#1, b := r.hi, md := 3#2, rm := r.low, tail := [] }
  | .mem (.base r d) => { x := 0#1, b := r.hi, md := d.mod, rm := r.low, tail := d.bytes }
  | .mem (.sib r i d) =>
    { x := Index.x i, b := r.hi, md := d.mod, rm := 4#3, tail := Index.sibByte i r.low :: d.bytes }
  | .mem (.sibNoBase i d) =>
    { x := Index.x i, b := 0#1, md := 0#2, rm := 4#3, tail := Index.sibByte i 5#3 :: disp32Bytes d }
  | .mem (.ripRel d) => { x := 0#1, b := 0#1, md := 0#2, rm := 5#3, tail := disp32Bytes d }
  | .mem (.abs32 d) => { x := 0#1, b := 0#1, md := 0#2, rm := 5#3, tail := disp32Bytes d }

/-- The opcode map field `mmmmm` (R57, R59). -/
def Instr.mapField (i : Instr) : BitVec 5 :=
  if i.imm8.isSome then 3#5 else 2#5

/-- The opcode byte (R62). -/
def Instr.opcode (i : Instr) : Byte :=
  if i.imm8.isSome then 0x04#8 else 0x0C#8

/-- The `VEX.L` bit (R77). -/
def Width.l : Width → BitVec 1
  | .w128 => 0#1
  | .w256 => 1#1

/-- The stored, complemented `VEX.vvvv` field: `1111b` where it names no register (R58, R66). -/
def Instr.storedV (i : Instr) : BitVec 4 :=
  match i.vvvv with
  | some v => ~~~v
  | none => 15#4

/-- The bytes of an instruction with the `VEX.W` bit and the stored `VEX.vvvv` field given (R55, R57, R58). -/
def Instr.encodeWith (w : BitVec 1) (v : BitVec 4) (i : Instr) : List Byte :=
  let f := i.rm.fields
  i.prefixes.bytes
    ++ [0xC4#8,
        ~~~i.dst.hi ++ ~~~f.x ++ ~~~f.b ++ i.mapField,
        w ++ v ++ i.width.l ++ 1#2,
        i.opcode,
        f.md ++ i.dst.low ++ f.rm]
    ++ f.tail
    ++ i.imm8.toList

/-- The bytes of an instruction (R59: `W = 0`). -/
def encode (i : Instr) : List Byte :=
  i.encodeWith 0#1 i.storedV

/-! ### The opcode table's numbering of an instruction's bits -/

/-- `n` bytes of a number, least significant byte first. -/
def bytesOfNat : Nat → Nat → List Byte
  | 0, _ => []
  | n + 1, w => BitVec.ofNat 8 w :: bytesOfNat n (w / 256)

/-- The longest encoding the decoder accepts, in bytes (R74). -/
def maxLen : Nat := 13

/-- The bytes, in address order, of the instruction whose table bits are `w`. spec/opcode_table.json numbers the
leading bytes as one numeral with byte 0 (`C4H`) in the most significant place; a numeral that has `C4H` in its least
significant byte is read in address order. DESIGN CHOICE, log entry 12. Every byte above is 0. -/
def tableBytes (nbits w : Nat) : List Byte :=
  let bs := bytesOfNat (nbits / 8) w
  (if bs.head? = some 0xC4#8 then bs else bs.reverse) ++ List.replicate (maxLen - nbits / 8) 0#8

/-- The instruction the decoder reads, in `Mode64`, from an instruction whose table bits are `w`. -/
def decodeTableWord (nbits w : Nat) : Option Instr :=
  match decode .mode64 (tableBytes nbits w) with
  | .form i => some i
  | .ud _ => none
  | .refuse _ _ => none
  | .notVpermilps => none
  | .short => none

end Sys2Proof
end

