-- ==== Sys2Proof/Machine/State.lean ====
section
/-! DEFINITION. The state the spec gives the machine (spec 10_state.md R13 to R34, 20_memory.md R35, R42, R47, R49,
70_reset_and_hazards.md R132), as plain data; its value after reset; the reasons a step stops. -/

namespace Sys2Proof.Machine

/-- Memory: the bytes that differ from what an unlisted address reads as, by physical address, addresses strictly
rising. -/
abbrev Memory := List Host.Cell

/-- What an unlisted address reads as. DESIGN CHOICE, unsafe (R34: contents after reset are unspecified), log entry 1. -/
def Memory.unlisted : Byte := 0#8

/-- The canonical form of memory: addresses strictly rising, no entry equal to what an unlisted address reads as. -/
abbrev Memory.wf (m : Memory) : Prop :=
  (m.map Prod.fst).Pairwise (· < ·) ∧ ∀ c ∈ m, c.2 ≠ Memory.unlisted

/-- A segment register: the selector, and behind it the base and what `SegCheck` consults (R19, R39, R41). -/
structure SegReg where
  selector : BitVec 16
  base     : Addr
  limit    : BitVec 32
  /-- The register holds a present, non-null descriptor. -/
  usable   : Bool
  /-- The descriptor is of a readable type. -/
  readable : Bool
  deriving DecidableEq, Repr

/-- What the oracle answers for the pages of a range (R42): mapped to frames from `frame` on, or a page fault with the
error-code bits 5 to 0 of R110 (the other bits are 0 for this instruction). -/
inductive PageAnswer where
  | mapped (frame : BitVec 52)
  | fault (code : BitVec 6)
  deriving DecidableEq, Repr

/-- The oracle's answer for the pages `first` to `last`, one access kind and one privilege level. -/
structure PageRange where
  kind   : AccessKind
  cpl    : BitVec 2
  first  : BitVec 52
  last   : BitVec 52
  answer : PageAnswer
  deriving DecidableEq, Repr

/-- The oracle `Translate` of R42 as plain data: the first range that covers a page answers; elsewhere the identity
(`none`) or a page fault. -/
structure Paging where
  ranges    : List PageRange
  elsewhere : Option (BitVec 6)
  deriving DecidableEq, Repr

/-- A range of physical addresses, `first` to `last`. -/
structure PhysRange where
  first : Addr
  last  : Addr
  deriving DecidableEq, Repr

/-- One byte written to physical memory by another agent (R46, R49). -/
structure EnvWrite where
  addr : Addr
  val  : Byte
  deriving DecidableEq, Repr

/-- The machine state. INVENTORY.md lists each field with its rule and reset value. The widths of `mxcsr`, `cr2`, `cr3`,
`cr4`, `efer` and `rflags`, and the selector's and the limit's in `SegReg`, are stated by no rule. PRESUMED, log entry 29. -/
structure State where
  v      : Vector Vec 16
  x      : Vector Addr 16
  rip    : Addr
  rflags : BitVec 64
  mxcsr  : BitVec 32
  cr0    : BitVec 64
  cr2    : BitVec 64
  cr3    : BitVec 64
  cr4    : BitVec 64
  xcr0   : BitVec 64
  efer   : BitVec 64
  csL    : Bool
  csD    : Bool
  cpl    : BitVec 2
  es     : SegReg
  cs     : SegReg
  ss     : SegReg
  ds     : SegReg
  fs     : SegReg
  gs     : SegReg
  paging : Paging
  mem    : Memory
  /-- Physical ranges that are not ordinary memory: device, uncacheable, write-combining (R47). -/
  special : List PhysRange
  /-- Some instruction or data breakpoint is armed (R124). -/
  breakpointArmed : Bool
  params : Params
  /-- `BASE` and `END` of the program (R132, R136). -/
  textBase : Addr
  textEnd  : Addr
  /-- What the other agents write: one batch for each coming step, in their order (R46, R49, D8). -/
  env    : List (List EnvWrite)
  /-- The model's own: the number of completed steps, the index of free values (log entry 10). -/
  tick   : Nat
  deriving DecidableEq, Repr

/-- A data segment register after reset (R34). -/
def SegReg.reset : SegReg :=
  { selector := 0, base := 0, limit := 0xFFFF#32, usable := true, readable := true }

/-- The machine right after power-up or RESET (R30 to R34); the values the rules do not give are in log entries 1
to 10, and bits 63:32 of `rflags` and `cr0`, of which R32 gives the low 32 bits, are 0 by log entry 28 (PRESUMED). -/
def State.reset : State :=
  { v := Vector.replicate 16 0
    x := Vector.replicate 16 0
    rip := 0xFFF0#64
    rflags := 0x2#64
    mxcsr := 0x1F80#32
    cr0 := 0x60000010#64
    cr2 := 0
    cr3 := 0
    cr4 := 0
    xcr0 := 1
    efer := 0
    csL := false
    csD := false
    cpl := 0
    es := SegReg.reset
    cs := { selector := 0xF000#16, base := 0xFFFF0000#64, limit := 0xFFFF#32, usable := true, readable := true }
    ss := SegReg.reset
    ds := SegReg.reset
    fs := SegReg.reset
    gs := SegReg.reset
    paging := { ranges := [], elsewhere := none }
    mem := []
    special := []
    breakpointArmed := false
    params := { cpuidAvx := true, linBits := .b48, acPolicy := .mayFault }
    textBase := 0xFFF0#64
    textEnd := 0xFFF0#64
    env := []
    tick := 0 }

/-- The exceptions of R101. Each ends the step with the state unchanged (R100, R115); the spec leaves delivery out of
scope (R116), so stopping here is SAFE: the model ends where a handler might go on. -/
inductive Fault where
  /-- `#UD`, no error code. Raised by `enabled` (R103, R104, R106) and by `step` on the decoder's `UD` (R102, R105). Safe. -/
  | ud
  /-- `#NM`, no error code. Raised by `enabled` when `CR0.TS = 1` (R107). Safe. -/
  | nm
  /-- `#SS(code)`. Raised by `checkAddress` for the SS segment (R108). Safe. -/
  | ss (code : BitVec 32)
  /-- `#GP(code)`. Raised by `checkAddress` for the other segments (R109) and by `fetchByte` (R112). Safe. -/
  | gp (code : BitVec 32)
  /-- `#PF(code)` with the faulting linear address. Raised by `readMemory` (R110) and by `fetchByte` (R112). Safe. -/
  | pf (code : BitVec 32) (addr : Addr)
  /-- `#AC(code)`. Raised by `alignCheck` (R111). Safe. -/
  | ac (code : BitVec 32)
  deriving DecidableEq, Repr

/-- The situations the spec gives no meaning (R10, the closed list), and the instructions not modelled. -/
inductive Refusal where
  /-- Raised by `exec` alone, for an instruction without a meaning. Safe. -/
  | notModelled (mnemonic : String)
  /-- `NotVPERMILPS`: raised by `step` when the bytes are another instruction (R78, R79), and by `gate` for a term that no
  bytes of the mode encode. Safe. -/
  | notVpermilps
  /-- `RipWrap`: raised by `fetchByte`, `onVerdict` and `gate` (R17). Safe. -/
  | ripWrap
  /-- `AddressWrap`: raised by `checkAddress` (R40). Safe. -/
  | addressWrap
  /-- `NonIdempotentMemory`: raised by `gate` (R47). Safe. -/
  | nonIdempotentMemory
  /-- `TextWritten`: raised by `premises` (R52). Safe. -/
  | textWritten
  /-- `PrefixForm`: a decoder verdict (R56). Safe. -/
  | prefixForm
  /-- `Mode32HighBit`: a decoder verdict (R61). Safe. -/
  | mode32HighBit
  /-- `Mode16`: a decoder verdict, and raised by `gate` (R73). Safe. -/
  | mode16
  /-- `AddrSize16`: a decoder verdict, and raised by `gate` (R73). Safe. -/
  | addrSize16
  /-- `TooLong`: a decoder verdict (R74). Safe. -/
  | tooLong
  /-- `CR0_EM`: raised by `enabled` (R126). Safe. -/
  | cr0Em
  /-- `DebugArmed`: raised by `premises` (R124). Safe. -/
  | debugArmed
  deriving DecidableEq, Repr

end Sys2Proof.Machine
end

