-- ==== Sys2Proof/Machine/Flags.lean ====
section
/-! DEFINITION. The status and control bits the machine reads (spec 10_state.md R20 to R26) and what is computed from
them: the operating mode (R25) and whether alignment checking is enabled (R44). VPERMILPS computes no flag and writes
none (R20, R21), so there is no flag computation beside these. -/

namespace Sys2Proof.Machine

/-- `CR0.PE`, bit 0 (R22). -/
def State.pe (s : State) : Bool := s.cr0.getLsbD 0

/-- `CR0.EM`, bit 2 (R22). -/
def State.em (s : State) : Bool := s.cr0.getLsbD 2

/-- `CR0.TS`, bit 3 (R22). -/
def State.ts (s : State) : Bool := s.cr0.getLsbD 3

/-- `CR0.AM`, bit 18 (R22). -/
def State.am (s : State) : Bool := s.cr0.getLsbD 18

/-- `CR0.PG`, bit 31 (R22). -/
def State.pg (s : State) : Bool := s.cr0.getLsbD 31

/-- `CR4.OSXSAVE`, bit 18 (R23). -/
def State.osxsave (s : State) : Bool := s.cr4.getLsbD 18

/-- `XCR0[2:1]`, the AVX and SSE state components (R24). -/
def State.xcr0Avx (s : State) : BitVec 2 := s.xcr0.extractLsb' 1 2

/-- `IA32_EFER.LMA`, bit 10 (R25). -/
def State.lma (s : State) : Bool := s.efer.getLsbD 10

/-- `RFLAGS.VM`, bit 17 (R20). -/
def State.vm (s : State) : Bool := s.rflags.getLsbD 17

/-- `RFLAGS.AC`, bit 18 (R20). -/
def State.ac (s : State) : Bool := s.rflags.getLsbD 18

/-- `RFLAGS.TF` (R124). PRESUMED, log entry 6: the spec names the flag and gives no bit number; the family has it in
bit 8. -/
def State.tf (s : State) : Bool := s.rflags.getLsbD 8

/-- `MODE` (R25). -/
def State.mode (s : State) : Mode :=
  if !s.pe then .modeReal
  else if s.vm then .modeV86
  else if s.lma && s.csL then .mode64
  else if s.csD then .mode32
  else .mode16

/-- Alignment checking is enabled: `CR0.AM = 1`, `EFLAGS.AC = 1` and `CPL = 3` (R44). -/
def State.alignEnabled (s : State) : Bool :=
  s.am && s.ac && s.cpl = 3#2

end Sys2Proof.Machine
end

