-- ==== Sys2Proof/Machine/Memory.lean ====
section
/-! DEFINITION. Reading and writing one byte of memory, and the writes of other agents (spec 20_memory.md R35, R37,
R46, R49). Every wider access is built from `Memory.read`. -/

namespace Sys2Proof.Machine

/-- The byte at a physical address. -/
def Memory.read : Memory → Nat → Byte
  | [], _ => Memory.unlisted
  | (b, w) :: m, a => if b = a then w else Memory.read m a

/-- Memory with one byte written, in canonical form: a byte equal to what an unlisted address reads as is not listed. -/
def Memory.write : Memory → Nat → Byte → Memory
  | [], a, w => if w = Memory.unlisted then [] else [(a, w)]
  | (b, u) :: m, a, w =>
    if a < b then (if w = Memory.unlisted then (b, u) :: m else (a, w) :: (b, u) :: m)
    else if a = b then (if w = Memory.unlisted then m else (a, w) :: m)
    else (b, u) :: Memory.write m a w

/-- Memory after a sequence of writes of other agents, in their order (R49). -/
def Memory.applyWrites : Memory → List EnvWrite → Memory
  | m, [] => m
  | m, w :: ws => Memory.applyWrites (Memory.write m w.addr.toNat w.val) ws

/-- Memory with the bytes written at rising addresses from `a` on. -/
def Memory.writeBytes : Memory → Addr → List Byte → Memory
  | m, _, [] => m
  | m, a, b :: bs => Memory.writeBytes (Memory.write m a.toNat b) (a + 1#64) bs

end Sys2Proof.Machine
end

