-- ==== Sys2Proof/Machine/Ops.lean ====
section
/-! DEFINITION. The named operations every form shares: outcomes in sequence, registers, taking an exception
(spec 60_exceptions.md R100, R115), translation (20_memory.md R42), fetching an instruction's bytes (R38, R112), the
launch premises (70_reset_and_hazards.md R132) and the completion of a step (R17, R28). -/

namespace Sys2Proof.Machine

/-- What a part of a step answers: a value, a fault or a refusal (R10). -/
abbrev Out (α : Type) := Host.Outcome α Fault Refusal

/-- First `o`, then `k` on its value; a fault or a refusal ends the step. -/
def Out.andThen {α β : Type} (o : Out α) (k : α → Out β) : Out β :=
  match o with
  | .next a => k a
  | .fault f => .fault f
  | .refused r => .refused r

/-- Taking an exception (R100): the step ends with it and the state is the one before the instruction (R115). The spec
describes no entry to a handler: delivery and return are outside its scope (R4, R116, R117), so this is the whole of
it. -/
def raise {α : Type} (f : Fault) : Out α := .fault f

/-- The vector number of an exception (R101). -/
def Fault.vector : Fault → Nat
  | .ud => 6
  | .nm => 7
  | .ss _ => 12
  | .gp _ => 13
  | .pf _ _ => 14
  | .ac _ => 17

/-! ### Registers -/

/-- `V[n]` (R8, R13). -/
def State.readV (s : State) (n : RegNum) : Vec := s.v[n.toFin]

/-- `XMM(n)` zero-extended, or `YMM(n)` (R8, R14). -/
def State.readVec (s : State) (w : Width) (n : RegNum) : Vec :=
  match w with
  | .w128 => ((s.readV n).extractLsb' 0 128).setWidth 256
  | .w256 => s.readV n

/-- `V[n] <- val`, all `VLMAX` bits (R8, R16). -/
def State.writeV (s : State) (n : RegNum) (val : Vec) : State :=
  { s with v := s.v.set n.toFin val }

/-- `x[n]` (R8, R18). -/
def State.readX (s : State) (n : RegNum) : Addr := s.x[n.toFin]

/-- `rip <- t` (R8, R17). -/
def State.setRip (s : State) (t : Addr) : State := { s with rip := t }

/-- The segment register of a name (R19). -/
def State.segReg (s : State) : Seg → SegReg
  | .es => s.es
  | .cs => s.cs
  | .ss => s.ss
  | .ds => s.ds
  | .fs => s.fs
  | .gs => s.gs

/-- `SegBase(seg)` (R39): in `Mode64` 0 but for FS and GS, elsewhere 32 bits. -/
def State.segBase (s : State) (g : Seg) : Addr :=
  if s.mode = .mode64 then
    match g with
    | .fs => s.fs.base
    | .gs => s.gs.base
    | .es | .cs | .ss | .ds => 0#64
  else ((s.segReg g).base.setWidth 32).setWidth 64

/-! ### Instruction pointer (R17) -/

/-- The significant part of `rip`: all of it in `Mode64`, EIP otherwise. -/
def State.ip (s : State) : Addr :=
  if s.mode = .mode64 then s.rip else (s.rip.setWidth 32).setWidth 64

/-- `rip + ILEN`, where it does not wrap. -/
def State.nextIp (s : State) (len : Nat) : Addr := s.ip + BitVec.ofNat 64 len

/-- The address is canonical: bits `63:LINBITS-1` are all equal (R40). -/
def State.canonical (s : State) (a : Addr) : Bool :=
  let top := a.toNat / 2 ^ (s.params.linBits.width - 1)
  top = 0 || top = 2 ^ (65 - s.params.linBits.width) - 1

/-- The instruction of `len` bytes at `rip` is refused: its end wraps the address space, or in `Mode64` one of its bytes
is not canonical (R17). In the other modes no instruction completes and the length is not used (R79). -/
def State.ripWraps (s : State) (len : Nat) : Bool :=
  match s.mode with
  | .mode64 =>
    2 ^ 64 ≤ s.ip.toNat + len ||
      (List.range len).any fun k => !s.canonical (s.ip + BitVec.ofNat 64 k)
  | .mode32 => 2 ^ 32 ≤ s.ip.toNat + len
  | .modeReal | .modeV86 | .mode16 => false

/-! ### Translation (R42) -/

/-- The oracle's answer for one byte. -/
inductive Translation where
  | phys (p : Addr)
  | pageFault (code : BitVec 6)
  deriving DecidableEq, Repr

/-- The page of a linear address: pages of 4096 bytes (DEDUCED from R45's "first byte of a page" and the pages of
spec/95_test_vectors.md section 2.11, log entry 5). -/
def pageOf (lin : Addr) : BitVec 52 := lin.extractLsb' 12 52

/-- The range covers the page for this kind and privilege level. -/
def PageRange.covers (r : PageRange) (kind : AccessKind) (cpl : BitVec 2) (page : BitVec 52) : Bool :=
  r.kind = kind && r.cpl = cpl && r.first.toNat ≤ page.toNat && page.toNat ≤ r.last.toNat

/-- A range's answer for a linear address it covers. -/
def PageRange.translate (r : PageRange) (lin : Addr) : Translation :=
  match r.answer with
  | .mapped frame => .phys ((frame + (pageOf lin - r.first)) ++ lin.extractLsb' 0 12)
  | .fault code => .pageFault code

/-- The oracle consulted with paging on. -/
def Paging.translate (g : Paging) (lin : Addr) (kind : AccessKind) (cpl : BitVec 2) : Translation :=
  match g.ranges.find? (fun r => r.covers kind cpl (pageOf lin)) with
  | some r => r.translate lin
  | none =>
    match g.elsewhere with
    | none => .phys lin
    | some code => .pageFault code

/-- `Translate(lin, kind, CPL)`; the identity while `CR0.PG = 0` (R42). -/
def State.translate (s : State) (lin : Addr) (kind : AccessKind) : Translation :=
  if s.pg then s.paging.translate lin kind s.cpl else .phys lin

/-! ### Instruction fetch (R38, R112) -/

/-- The linear address of code offset `off` (R38). -/
def State.codeLinear (s : State) (off : Addr) : Addr :=
  if s.mode = .mode64 then s.segBase .cs + off
  else ((s.segBase .cs + off).setWidth 32).setWidth 64

/-- `Fetch(rip, k)`, or why the byte cannot be fetched (R17, R112). Which physical range the byte lies in plays no part:
the spec takes the text as ordinary memory (R48, R122) and gives no outcome where it is not. DESIGN CHOICE, log entry
27. -/
def State.fetchByte (s : State) (k : Nat) : Out Byte :=
  let off := s.ip + BitVec.ofNat 64 k
  if s.mode = .mode64 && (2 ^ 64 ≤ s.ip.toNat + k || !s.canonical off) then .refused .ripWrap
  else if s.mode ≠ .mode64 && 2 ^ 32 ≤ s.ip.toNat + k then .refused .ripWrap
  else if s.mode ≠ .mode64 && s.cs.limit.toNat < off.toNat then raise (.gp 0)
  else
    match s.translate (s.codeLinear off) .fetch with
    | .phys p => .next (s.mem.read p.toNat)
    | .pageFault code => raise (.pf (code.setWidth 32) (s.codeLinear off))

/-- More bytes than an address space has, so more than a step can fetch. -/
def fetchFuel : Nat := 2 ^ 64 + 1

/-- R79 on the bytes at `rip`, of which `bytes` are fetched: while the decoder needs another byte, that byte is fetched,
and a byte that cannot be ends the step (R112). Byte `2^64` would wrap in every mode (R17); it is never reached
(`State.fetchDecode_of_fetches`). -/
def State.fetchDecode (s : State) : Nat → List Byte → Out Verdict
  | 0, _ => .refused .ripWrap
  | n + 1, bytes =>
    match decode s.mode bytes with
    | .short => (s.fetchByte bytes.length).andThen fun b => State.fetchDecode s n (bytes ++ [b])
    | .form i => .next (.form i)
    | .ud len => .next (.ud len)
    | .refuse r len => .next (.refuse r len)
    | .notVpermilps => .next .notVpermilps

/-! ### Launch premises that refuse the run (R52, R113, R124) -/

/-- The physical addresses of the program text `BASE .. END-1`, where the oracle gives them. -/
def State.textPhys (s : State) : List Addr :=
  (List.range (s.textEnd.toNat - s.textBase.toNat)).filterMap fun k =>
    match s.translate (s.codeLinear (s.textBase + BitVec.ofNat 64 k)) .fetch with
    | .phys p => some p
    | .pageFault _ => none

/-- Another agent writes a byte of the program text during the run (R52). -/
def State.textWritten (s : State) : Bool :=
  s.env.any fun batch => batch.any fun w => s.textPhys.contains w.addr

/-- The premises whose failure refuses the run as a whole, whatever R113's table would give: no breakpoint armed and
`TF = 0` (R124), the text not written (R52). -/
def premises (s : State) : Out Unit :=
  if s.breakpointArmed || s.tf then .refused .debugArmed
  else if s.textWritten then .refused .textWritten
  else .next ()

/-! ### The enabling state (R113 steps 3a to 5) -/

/-- `#UD` for the mode, `OSXSAVE`, `XCR0` and CPUID (R103, R104, R106), `Refuse(CR0_EM)` (R126), `#NM` (R107), in R113's
order. -/
def enabled (s : State) : Out Unit :=
  if s.mode = .modeReal || s.mode = .modeV86 then raise .ud
  else if !s.osxsave || s.xcr0Avx ≠ 3#2 then raise .ud
  else if !s.params.cpuidAvx then raise .ud
  else if s.em then .refused .cr0Em
  else if s.ts then raise .nm
  else .next ()

/-! ### Completion -/

/-- The two changes of an instruction that completes (R28, R86 step 6): the destination register and `rip`. -/
def State.complete (s : State) (i : Instr) (result : Vec) : State :=
  (s.writeV i.dst result).setRip (s.nextIp i.ilen)

/-- The batch of writes that other agents make during this step (R46). -/
def State.batch (s : State) : List EnvWrite := s.env.headD []

/-- The other agents' part of a completed step: their batch has landed (R49); and the model's own counter. -/
def State.envAdvance (s : State) : State :=
  { s with mem := s.mem.applyWrites s.batch, env := s.env.tail, tick := s.tick + 1 }

/-! ### Launch (R131, R132) -/

/-- The state that the enabling software of R131 leaves for `Mode64`: protected mode, paging and long mode on with every
page mapped to itself, a 64-bit code segment, `VM = 0`, `OSXSAVE`, `XCR0` bits 2 to 0, `EM = TS = 0`; and the premise
`L_Quiet` of R132 (`TF = 0`, no breakpoint, no other agent writing). Log entry 11. -/
def State.launch (s : State) : State :=
  { s with
    cr0 := (s.cr0 ||| 0x80000001#64) &&& ~~~0xC#64
    cr4 := s.cr4 ||| 0x40000#64
    xcr0 := s.xcr0 ||| 0x7#64
    efer := s.efer ||| 0x400#64
    csL := true
    rflags := s.rflags &&& ~~~0x20100#64
    paging := { ranges := [], elsewhere := none }
    breakpointArmed := false
    env := []
    params := { s.params with cpuidAvx := true } }

end Sys2Proof.Machine
end

