-- ==== Sys2Proof/Machine/Operands.lean ====
section
/-! DEFINITION. The `r/m` operand: effective address (spec 30_encoding.md R68 to R72), segment and linear address
(20_memory.md R39), address checks (R40, R41), the read with its page faults, alignment check and byte order (R37, R44
to R46), and the checks that stand before it (60_exceptions.md R113). -/

namespace Sys2Proof.Machine

/-! ### Effective address (R68 to R72) -/

/-- The address size `A` is 64 (R72). -/
def State.addrSize64 (s : State) (p : Prefixes) : Bool :=
  s.mode = .mode64 && !p.addr67

/-- `zext_64(trunc_A(a))`. -/
def truncA (a64 : Bool) (a : Addr) : Addr :=
  if a64 then a else (a.setWidth 32).setWidth 64

/-- `sext_A` of a displacement; the sum is truncated to `A` bits afterwards (R68, R70). -/
def dispValue : Disp → Addr
  | .none => 0#64
  | .d8 d => d.signExtend 64
  | .d32 d => d.signExtend 64

/-- The index term `g(idx) << scale`, 0 where there is no index (R69). -/
def State.indexTerm (s : State) (a64 : Bool) : Option Index → Addr
  | none => 0#64
  | some i => truncA a64 (s.readX i.reg) <<< i.scale.toNat

/-- The effective address; `len` is the instruction's length (R68, R69, R71). -/
def State.effAddr (s : State) (p : Prefixes) (len : Nat) (m : MemForm) : Addr :=
  let a64 := s.addrSize64 p
  truncA a64 <|
    match m with
    | .base r d => truncA a64 (s.readX r) + dispValue d
    | .sib r i d => truncA a64 (s.readX r) + s.indexTerm a64 i + dispValue d
    | .sibNoBase i d => s.indexTerm a64 i + d.signExtend 64
    | .ripRel d => s.nextIp len + d.signExtend 64
    | .abs32 d => d.signExtend 64

/-! ### Segment and linear address (R39, R72) -/

/-- A base register whose default segment is SS: RSP/ESP or RBP/EBP (R72). -/
def baseIsStack (r : RegNum) : Bool := r = 4#4 || r = 5#4

/-- The default segment of an addressing form (R72). -/
def defaultSeg : MemForm → Seg
  | .base r _ => if baseIsStack r then .ss else .ds
  | .sib r _ _ => if baseIsStack r then .ss else .ds
  | .sibNoBase _ _ => .ds
  | .ripRel _ => .ds
  | .abs32 _ => .ds

/-- The segment of the operand: the override where it is honoured (in `Mode64` FS and GS only), else the default (R39,
R56, D32). -/
def State.operandSeg (s : State) (p : Prefixes) (m : MemForm) : Seg :=
  match p.seg with
  | none => defaultSeg m
  | some g =>
    if s.mode = .mode64 then (if g = .fs || g = .gs then g else defaultSeg m)
    else g

/-- `lin` (R39). -/
def State.linear (s : State) (g : Seg) (ea : Addr) : Addr :=
  if s.mode = .mode64 then s.segBase g + ea
  else ((s.segBase g + ea).setWidth 32).setWidth 64

/-- The linear address of byte `k` of the operand (R37, R45); a 32-bit one outside `Mode64`. -/
def State.byteLinear (s : State) (lin : Addr) (k : Nat) : Addr :=
  if s.mode = .mode64 then lin + BitVec.ofNat 64 k
  else ((lin + BitVec.ofNat 64 k).setWidth 32).setWidth 64

/-- `#SS(0)` for the SS segment, `#GP(0)` for any other (R40, R41, R108, R109). -/
def segFault (g : Seg) : Fault := if g = .ss then .ss 0 else .gp 0

/-- `SegCheck(seg, ea, n, Read)` (R41). -/
def State.segCheck (s : State) (g : Seg) (ea : Addr) (n : Nat) : Bool :=
  (s.segReg g).usable && (s.segReg g).readable &&
    (ea.toNat + n ≤ 2 ^ 32) && (ea.toNat + n ≤ (s.segReg g).limit.toNat + 1)

/-- R113 step 6: the access wraps `2^64`, or is not canonical (`Mode64`, R40), or fails `SegCheck` (R41). -/
def State.checkAddress (s : State) (g : Seg) (ea : Addr) (n : Nat) : Out Unit :=
  if s.mode = .mode64 then
    if 2 ^ 64 < (s.linear g ea).toNat + n then .refused .addressWrap
    else if (List.range n).all fun k => s.canonical (s.byteLinear (s.linear g ea) k) then .next ()
    else raise (segFault g)
  else if s.segCheck g ea n then .next ()
  else raise (segFault g)

/-! ### Pages, alignment, bytes (R37, R44 to R46) -/

/-- The physical addresses of `n` operand bytes from byte `k` on, or the first page fault among them: its linear
address and the oracle's code (R45). -/
def State.physFrom (s : State) (lin : Addr) : Nat → Nat → Except (Addr × BitVec 6) (List Addr)
  | 0, _ => .ok []
  | n + 1, k =>
    match s.translate (s.byteLinear lin k) .read with
    | .pageFault code => .error (s.byteLinear lin k, code)
    | .phys p => (State.physFrom s lin n (k + 1)).map (p :: ·)

/-- The byte `k` of the operand page-faults: its linear address and the code (R45). -/
def State.byteFault (s : State) (lin : Addr) (k : Nat) : Option (Addr × BitVec 6) :=
  match s.translate (s.byteLinear lin k) .read with
  | .pageFault code => some (s.byteLinear lin k, code)
  | .phys _ => none

/-- The addresses a page fault may report: those of the faulting bytes that are the operand's first byte or the first
byte of a page (R45). -/
def State.faultChoices (s : State) (lin : Addr) (n : Nat) : List (Addr × BitVec 6) :=
  (List.range n).filterMap fun k =>
    if k = 0 || (s.byteLinear lin k).extractLsb' 0 12 = 0#12 then s.byteFault lin k else none

/-- The error code reported for the data read: the oracle's, with bit 1 (`W/R`) 0 (R110). -/
def readFaultCode (code : BitVec 6) : BitVec 32 := (code &&& ~~~2#6).setWidth 32

/-- `#PF` at a linear address with the oracle's code (R110). -/
def faultAt (c : Addr × BitVec 6) : Fault := .pf (readFaultCode c.2) c.1

/-- The page fault of the operand (R45, R110): a draw among the choices where there are several. `first` is the first
faulting byte; it is a choice itself, so the first case is never met (`faultChoices_ne_nil`). -/
def State.pageFault (s : State) (lin : Addr) (n : Nat) (first : Addr × BitVec 6) : Fault :=
  match s.faultChoices lin n with
  | [] => faultAt first
  | [c] => faultAt c
  | c :: d :: cs => faultAt ((c :: d :: cs).getD (Config.pageFaultDraw s.tick % (c :: d :: cs).length) c)

/-- R113 step 8: the alignment check under `AC_POLICY` (R44, R111). -/
def State.alignCheck (s : State) (lin : Addr) (n : Nat) : Out Unit :=
  if s.alignEnabled && lin.toNat % n ≠ 0 then
    match s.params.acPolicy with
    | .never => .next ()
    | .always => raise (.ac 0)
    | .mayFault => if Config.alignDraw s.tick then raise (.ac 0) else .next ()
  else .next ()

/-- The byte that operand byte `k` observes at physical address `p`: the memory's content, or, while other agents write
during this step, the content after as many of their writes as the free value says (R46). -/
def State.seenByte (s : State) (k : Nat) (p : Addr) : Byte :=
  match s.batch with
  | [] => s.mem.read p.toNat
  | w :: ws =>
    (s.mem.applyWrites ((w :: ws).take (Config.tearDraw s.tick k % ((w :: ws).length + 1)))).read p.toNat

/-- The bytes observed at the physical addresses, from operand byte `k` on. -/
def State.seenBytes (s : State) : Nat → List Addr → List Byte
  | _, [] => []
  | k, p :: ps => s.seenByte k p :: State.seenBytes s (k + 1) ps

/-- `b[n-1] ++ ... ++ b[1] ++ b[0]`, zero-extended to a vector: the byte at the lowest address supplies bits `7:0`
(R37). -/
def joinBytes : List Byte → Vec
  | [] => 0
  | b :: bs => (joinBytes bs <<< 8) ||| b.setWidth 256

/-- `MemRead(seg, ea, n)` (R37), with the checks of R113 steps 6 to 8. -/
def State.readMemory (s : State) (g : Seg) (ea : Addr) (n : Nat) : Out Vec :=
  (s.checkAddress g ea n).andThen fun _ =>
    match s.physFrom (s.linear g ea) n 0 with
    | .error first => raise (s.pageFault (s.linear g ea) n first)
    | .ok ps =>
      (s.alignCheck (s.linear g ea) n).andThen fun _ => .next (joinBytes (s.seenBytes 0 ps))

/-- The effective address of an instruction's memory operand. -/
def State.ea (s : State) (i : Instr) (m : MemForm) : Addr := s.effAddr i.prefixes i.ilen m

/-- The segment of an instruction's memory operand. -/
def State.seg (s : State) (i : Instr) (m : MemForm) : Seg := s.operandSeg i.prefixes m

/-- The linear address of an instruction's memory operand. -/
def State.lin (s : State) (i : Instr) (m : MemForm) : Addr := s.linear (s.seg i m) (s.ea i m)

/-- The value of the `r/m` operand (R65, R66): a register's view of the form's width, or the memory read. -/
def State.readRm (s : State) (i : Instr) : Out Vec :=
  match i.rm with
  | .reg r => .next (s.readVec i.width r)
  | .mem m => s.readMemory (s.seg i m) (s.ea i m) i.width.bytes

/-! ### What stands before the operand is read (R113 steps 1 to 5) -/

/-- The physical address is not ordinary memory (R47). -/
def State.isSpecial (s : State) (p : Addr) : Bool :=
  s.special.any fun r => r.first.toNat ≤ p.toNat && p.toNat ≤ r.last.toNat

/-- A byte of the instruction's memory operand lies in memory that is not ordinary (R47). Only `Mode64` and `Mode32` form
an address, and an operand that fails the address checks has no place. -/
def State.operandSpecial (s : State) (i : Instr) : Bool :=
  match i.rm with
  | .reg _ => false
  | .mem m =>
    match s.checkAddress (s.seg i m) (s.ea i m) i.width.bytes with
    | .next _ =>
      (List.range i.width.bytes).any fun k =>
        match s.translate (s.byteLinear (s.lin i m) k) .read with
        | .phys p => s.isSpecial p
        | .pageFault _ => false
    | .fault _ => false
    | .refused _ => false

/-- The refusals of R113 steps 1 and 2 as far as they are the instruction's own (R17, R73), a term that no bytes of the
mode encode, and the premise that the operand lies in ordinary memory (R47). -/
def State.refusal (s : State) (i : Instr) : Option Refusal :=
  if s.ripWraps i.ilen then some .ripWrap
  else if s.mode = .mode16 then some .mode16
  else if !i.fits s.mode then some .notVpermilps
  else if i.addr16 s.mode then some .addrSize16
  else if (s.mode = .mode64 || s.mode = .mode32) && s.operandSpecial i then some .nonIdempotentMemory
  else none

/-- R113 steps 1 to 5. -/
def State.gate (s : State) (i : Instr) : Out Unit :=
  match s.refusal i with
  | some r => .refused r
  | none => enabled s

/-- The common course of an execution (R86): the checks, the sources read from the state before, the result, and the two
changes. -/
def runForm (i : Instr) (s : State) (result : Vec → Vec) : Out State :=
  (s.gate i).andThen fun _ => (s.readRm i).andThen fun src => .next (s.complete i (result src))

end Sys2Proof.Machine
end

