-- ==== Sys2Proof/Machine/Vpermilps.lean ====
section
/-! DEFINITION. What VPERMILPS computes (spec 40_vpermilps.md R85 to R97) and the meaning of each of its four forms. -/

namespace Sys2Proof.Machine

/-- `Select4(SRC, control)` with the four arms as R85 restores them (decision D1: PRESUMED, log entry 14). -/
def select4 (src : Lane) (c : BitVec 2) : Elem :=
  if c = 0#2 then src.extractLsb' 0 32
  else if c = 1#2 then src.extractLsb' 32 32
  else if c = 2#2 then src.extractLsb' 64 32
  else src.extractLsb' 96 32

/-- One lane of the destination from one lane of SRC1 and the four selectors, element 0 first. -/
def permuteLane (src : Lane) (c0 c1 c2 c3 : BitVec 2) : Lane :=
  select4 src c3 ++ select4 src c2 ++ select4 src c1 ++ select4 src c0

/-- Lane 0, bits `127:0` (R7). -/
def lane0 (v : Vec) : Lane := v.extractLsb' 0 128

/-- Lane 1, bits `255:128` (R7). -/
def lane1 (v : Vec) : Lane := v.extractLsb' 128 128

/-- One lane of the variable forms: selector `i` is bits `32i+1:32i` of the control lane (R87, R89, R94). -/
def varLane (src ctl : Lane) : Lane :=
  permuteLane src (ctl.extractLsb' 0 2) (ctl.extractLsb' 32 2) (ctl.extractLsb' 64 2) (ctl.extractLsb' 96 2)

/-- One lane of the immediate forms: selector `j` is `imm8[2j+1:2j]` (R67, R88, R90). -/
def immLane (src : Lane) (imm : BitVec 8) : Lane :=
  permuteLane src (imm.extractLsb' 0 2) (imm.extractLsb' 2 2) (imm.extractLsb' 4 2) (imm.extractLsb' 6 2)

/-- The result of a form from its lanes: the 128-bit forms write 0 to bits `VLMAX-1:128` (R96). -/
def fromLanes (w : Width) (hi lo : Lane) : Vec :=
  match w with
  | .w128 => 0#128 ++ lo
  | .w256 => hi ++ lo

/-- The result of the variable forms (R87, R89). -/
def varResult (w : Width) (src1 src2 : Vec) : Vec :=
  fromLanes w (varLane (lane1 src1) (lane1 src2)) (varLane (lane0 src1) (lane0 src2))

/-- The result of the immediate forms (R88, R90). -/
def immResult (w : Width) (src1 : Vec) (imm : BitVec 8) : Vec :=
  fromLanes w (immLane (lane1 src1) imm) (immLane (lane0 src1) imm)

/-- What the form computes from SRC1's register and the value of the `r/m` operand (R87 to R90). -/
def resultOf (i : Instr) (s : State) (src : Vec) : Vec :=
  match i with
  | .var128 _ _ src1 _ => varResult .w128 (s.readVec .w128 src1) src
  | .imm128 _ _ _ imm => immResult .w128 src imm
  | .var256 _ _ src1 _ => varResult .w256 (s.readVec .w256 src1) src
  | .imm256 _ _ _ imm => immResult .w256 src imm

/-- `VPERMILPS xmm1, xmm2, xmm3/m128` (R87). -/
def execVar128 (p : Prefixes) (dst src1 : RegNum) (rm : Rm) (s : State) : Host.Outcome State Fault Refusal :=
  runForm (.var128 p dst src1 rm) s fun src2 => varResult .w128 (s.readVec .w128 src1) src2

/-- `VPERMILPS xmm1, xmm2/m128, imm8` (R88). -/
def execImm128 (p : Prefixes) (dst : RegNum) (rm : Rm) (imm : BitVec 8) (s : State) : Host.Outcome State Fault Refusal :=
  runForm (.imm128 p dst rm imm) s fun src1 => immResult .w128 src1 imm

/-- `VPERMILPS ymm1, ymm2, ymm3/m256` (R89). -/
def execVar256 (p : Prefixes) (dst src1 : RegNum) (rm : Rm) (s : State) : Host.Outcome State Fault Refusal :=
  runForm (.var256 p dst src1 rm) s fun src2 => varResult .w256 (s.readVec .w256 src1) src2

/-- `VPERMILPS ymm1, ymm2/m256, imm8` (R90). -/
def execImm256 (p : Prefixes) (dst : RegNum) (rm : Rm) (imm : BitVec 8) (s : State) : Host.Outcome State Fault Refusal :=
  runForm (.imm256 p dst rm imm) s fun src1 => immResult .w256 src1 imm

end Sys2Proof.Machine
end

