-- ==== Sys2Proof/Machine/Dispatch.lean ====
section
/-! DEFINITION. Which meaning each form has: one arm per constructor of `Instr`. -/

namespace Sys2Proof.Machine

/-- The effect of one decoded instruction. -/
def exec (i : Instr) (s : State) : Host.Outcome State Fault Refusal :=
  match i with
  | .var128 p dst src1 rm => Sys2Proof.Machine.execVar128 p dst src1 rm s
  | .imm128 p dst rm imm => Sys2Proof.Machine.execImm128 p dst rm imm s
  | .var256 p dst src1 rm => Sys2Proof.Machine.execVar256 p dst src1 rm s
  | .imm256 p dst rm imm => Sys2Proof.Machine.execImm256 p dst rm imm s

end Sys2Proof.Machine
end

