-- ==== Sys2Proof/Machine/Verdict.lean ====
section
/-! DEFINITION. What a step does with the decoder's verdict (spec 60_exceptions.md R113 steps 1 and 2, 40_vpermilps.md
R86), and the launch that places an instruction where the step fetches it. -/

namespace Sys2Proof.Machine

/-- A decoder's refusal as the step's (R10). -/
def refusalOf : DecodeRefusal → Refusal
  | .prefixForm => .prefixForm
  | .mode32HighBit => .mode32HighBit
  | .mode16 => .mode16
  | .addrSize16 => .addrSize16
  | .tooLong => .tooLong

/-- R113 on the decoder's verdict. `RipWrap` (step 1) stands before the verdict's own outcome where the length is known.
`short` is no verdict of `State.fetchDecode` (`State.fetchDecode_eq_next`). -/
def onVerdict (s : State) : Verdict → Host.Outcome State Fault Refusal
  | .short => .refused .ripWrap
  | .notVpermilps => .refused .notVpermilps
  | .refuse r len => if s.ripWraps len then .refused .ripWrap else .refused (refusalOf r)
  | .ud len => if s.ripWraps len then .refused .ripWrap else raise .ud
  | .form i => Out.andThen (exec i s) fun t => .next t.envAdvance

/-- The machine launched (R131, R132) with these bytes at `rip`; in that state every page is mapped to itself. -/
def State.place (s : State) (bytes : List Byte) : State :=
  { s.launch with mem := s.mem.writeBytes s.rip bytes }

/-- The machine launched with a program's text at `rip`, and `BASE` and `END` at its ends (R132, R136). -/
def State.load (s : State) (text : List Byte) : State :=
  { s.place text with textBase := s.rip, textEnd := s.rip + BitVec.ofNat 64 text.length }

end Sys2Proof.Machine
end

