-- ==== Sys2Proof/Machine/Step.lean ====
section
/-! DEFINITION. One step (spec 40_vpermilps.md R86, 60_exceptions.md R113): the premises, fetch and decode, and
what follows from the verdict; and how a test places an instruction at `rip`. -/

namespace Sys2Proof.Machine

/-- One step of the machine. -/
def step (s : State) : Host.Outcome State Fault Refusal :=
  Out.andThen (premises s) fun _ => Out.andThen (s.fetchDecode fetchFuel []) (onVerdict s)

/-- The machine launched (R131, R132, log entry 11) with the instruction whose table bits are `w` at `rip`. -/
def State.withFetchWord (s : State) (nbits w : Nat) : State :=
  s.place (tableBytes nbits w)

end Sys2Proof.Machine
end

