-- ==== Sys2Proof/Safety.lean ====
section
/-! DEFINITION. The terms claims are stated in: the launch premises of spec 70_reset_and_hazards.md R132, when an
instruction is ready to execute and its operand readable, programs and runs (R136), what INIT leaves (R30, R31), and the
invariant that every step keeps. -/

namespace Sys2Proof.Machine

/-! ### Launch premises (R132) -/

/-- `L_Mode`: `MODE` is `Mode64` or `Mode32`. -/
def LMode (s : State) : Prop := s.mode = .mode64 ∨ s.mode = .mode32

/-- `L_AvxEnabled`: `CPUID_AVX`, `CR4.OSXSAVE = 1`, `XCR0[2:1] = 11b`. -/
def LAvxEnabled (s : State) : Prop := s.params.cpuidAvx = true ∧ s.osxsave = true ∧ s.xcr0Avx = 3#2

/-- `L_NoTS`: `CR0.TS = 0` and `CR0.EM = 0`. -/
def LNoTs (s : State) : Prop := s.ts = false ∧ s.em = false

/-- `L_Quiet`, as far as the model can show it: no breakpoint armed, `TF = 0`. -/
def LQuiet (s : State) : Prop := s.breakpointArmed = false ∧ s.tf = false

/-- The part of `L_Text` that every step checks: no other agent writes a byte of the program text. -/
def TextUnwritten (s : State) : Prop := s.textWritten = false

/-- The bytes at `rip` can be fetched, and are these. -/
def Fetches (s : State) (bytes : List Byte) : Prop :=
  ∀ k (h : k < bytes.length), s.fetchByte k = .next bytes[k]

/-! ### One instruction -/

/-- The instruction is one the decoder answers in the mode, `Mode64` or `Mode32`, it does not run off the address space
(R17), and its memory operand, if it has a place, is ordinary memory (R47). -/
structure Admitted (i : Instr) (s : State) : Prop where
  mode     : LMode s
  wf       : i.wf s.mode = true
  ip       : s.ripWraps i.ilen = false
  ordinary : s.operandSpecial i = false

/-- `Admitted`, in a state where the instruction is enabled (R103 to R107, R126). -/
structure Ready (i : Instr) (s : State) : Prop where
  admitted : Admitted i s
  avx      : LAvxEnabled s
  noTs     : LNoTs s

/-- The address of the memory operand passes the checks of R113 step 6: it does not wrap and every byte is canonical
(`Mode64`, R40), or `SegCheck` holds (`Mode32`, R41). -/
structure AddressOk (i : Instr) (m : MemForm) (s : State) : Prop where
  wrap : s.mode = .mode64 → (s.lin i m).toNat + i.width.bytes ≤ 2 ^ 64
  canonical : s.mode = .mode64 → ∀ k < i.width.bytes, s.canonical (s.byteLinear (s.lin i m) k) = true
  segment : s.mode ≠ .mode64 → s.segCheck (s.seg i m) (s.ea i m) i.width.bytes = true

/-- Every byte of the memory operand translates, byte `k` to `phys k` (R42, R45). -/
def Translates (i : Instr) (m : MemForm) (s : State) (phys : Nat → Addr) : Prop :=
  ∀ k < i.width.bytes, s.translate (s.byteLinear (s.lin i m) k) .read = .phys (phys k)

/-- The operand is aligned to its size, or alignment checking is not enabled, or the policy is `Never` (R44). -/
def AlignOk (i : Instr) (m : MemForm) (s : State) : Prop :=
  s.alignEnabled = false ∨ (s.lin i m).toNat % i.width.bytes = 0 ∨ s.params.acPolicy = .never

/-- The memory operand can be read: R113 steps 6 to 8 find nothing. -/
structure Readable (i : Instr) (m : MemForm) (s : State) (phys : Nat → Addr) : Prop where
  address    : AddressOk i m s
  translates : Translates i m s phys
  aligned    : AlignOk i m s

/-- The memory's content at the operand's physical bytes, lowest linear address first (R37). -/
def operandBytes (i : Instr) (s : State) (phys : Nat → Addr) : List Byte :=
  (List.range i.width.bytes).map fun k => s.mem.read (phys k).toNat

/-- `src` is the value of the `r/m` operand (R65, R66): the register, or the memory read while no other agent writes. -/
def SourceIs (i : Instr) (s : State) (src : Vec) : Prop :=
  match i.rm with
  | .reg r => src = s.readV r
  | .mem m => s.batch = [] ∧ ∃ phys, Readable i m s phys ∧ src = joinBytes (operandBytes i s phys)

/-- SRC1, the data that is permuted: `V[vvvv]` in row RVM, the `r/m` operand in row RMI (R65, R66). -/
def src1Of (i : Instr) (s : State) (src : Vec) : Vec :=
  match i.vvvv with
  | some v => s.readV v
  | none => src

/-- Element `k` of a vector (R7). -/
def elem (v : Vec) (k : Nat) : Elem := v.extractLsb' (32 * k) 32

/-- The number of elements of a form (R7). -/
def elemCount : Width → Nat
  | .w128 => 4
  | .w256 => 8

/-- A displacement as an integer (R70). -/
def dispInt : Disp → Int
  | .none => 0
  | .d8 d => d.toInt
  | .d32 d => d.toInt

/-- `g(i)` as a number: the register modulo `2^A` (30_encoding.md section 3). -/
def State.gNat (s : State) (p : Prefixes) (r : RegNum) : Nat :=
  (s.readX r).toNat % (if s.addrSize64 p then 2 ^ 64 else 2 ^ 32)

/-- The index term as a number: the register times 1, 2, 4 or 8, or 0 (R69). -/
def State.indexNat (s : State) (p : Prefixes) : Option Index → Nat
  | none => 0
  | some i => s.gNat p i.reg * 2 ^ i.scale.toNat

/-- The sum of R68, R69 and R71 in exact integers, before it is truncated to `A` bits. -/
def State.exactSum (s : State) (p : Prefixes) (len : Nat) : MemForm → Int
  | .base r d => s.gNat p r + dispInt d
  | .sib r i d => s.gNat p r + s.indexNat p i + dispInt d
  | .sibNoBase i d => s.indexNat p i + d.toInt
  | .ripRel d => s.ip.toNat + len + d.toInt
  | .abs32 d => d.toInt

/-- The state after the instruction with result `r` (R28): the destination register and `rip`, nothing else. -/
def After (i : Instr) (s : State) (r : Vec) : State :=
  (s.writeV i.dst r).setRip (s.nextIp i.ilen)

/-! ### Programs and runs (R132, R136) -/

/-- A program: VPERMILPS encodings laid end to end, each with the instruction it is. -/
abbrev Program := List (Instr × List Byte)

/-- The bytes of a program. -/
def Program.bytes (p : Program) : List Byte := p.flatMap Prod.snd

/-- `L_Text`: the bytes at `BASE` are the program's encodings, end to end; they are fetchable (canonical, within the code
segment, translated for `Fetch`) and lie in ordinary memory (R48); `END = BASE` plus the sum of their lengths, in the address
space of the mode; no agent writes them. -/
structure LText (p : Program) (s : State) : Prop where
  encodings : ∀ c ∈ p, decode s.mode c.2 = .form c.1 ∧ c.2.length = c.1.ilen
  fetched   : Fetches (s.setRip s.textBase) p.bytes
  ordinary  : ∀ a ∈ s.textPhys, s.isSpecial a = false
  ends      : s.textEnd.toNat = s.textBase.toNat + (p.map fun c => c.1.ilen).sum
  space     : s.mode ≠ .mode64 → s.textEnd.toNat < 2 ^ 32
  unwritten : TextUnwritten s

/-- `L_Mem`: every memory operand of the program lies in ordinary memory, each taken at its instruction's address (a run
changes nothing else that an operand's address depends on, R28). -/
def LMem : Program → State → Prop
  | [], _ => True
  | c :: p, s => s.operandSpecial c.1 = false ∧ LMem p (s.setRip (s.nextIp c.1.ilen))

/-- Every memory operand of the program can be read: R113 steps 6 to 8 find nothing. -/
def OperandsReadable : Program → State → Prop
  | [], _ => True
  | c :: p, s =>
    (∀ m, c.1.rm = .mem m → ∃ phys, Readable c.1 m s phys) ∧ OperandsReadable p (s.setRip (s.nextIp c.1.ilen))

/-- A launch state of a program: the premises of R132's table, all taken, and `rip = BASE`. -/
structure Launched (p : Program) (s : State) : Prop where
  mode  : LMode s
  avx   : LAvxEnabled s
  noTs  : LNoTs s
  text  : LText p s
  mem   : LMem p s
  quiet : LQuiet s
  start : s.rip = s.textBase

/-- From `s`, on its way through the program, the run is over after exactly `k` steps in `t`: every step is `Next`, and
`rip = END` after the last one and after none before it. -/
def RunEnds : Nat → State → State → Prop
  | 0, s, t => s = t ∧ s.rip = s.textEnd
  | k + 1, s, t => s.rip ≠ s.textEnd ∧ ∃ u, step s = .next u ∧ RunEnds k u t

/-- A run: it starts with `rip = BASE` and is over, with the final state `t`, after `k` steps. -/
def Run (k : Nat) (s t : State) : Prop := s.rip = s.textBase ∧ RunEnds k s t

/-! ### INIT (R30, R31) -/

/-- What the spec says INIT leaves: the vector registers as they were, `rip` and the CS base as after RESET, and a state
that fetches its first instruction from physical address FFFF_FFF0H through that base, so not in `Mode64` (where the CS
base is 0, R39) and with an oracle that answers so. It says nothing of the rest (log entry 25). -/
structure InitLeaves (s t : State) : Prop where
  v     : t.v = s.v
  rip   : t.rip = 0xFFF0#64
  base  : t.cs.base = 0xFFFF0000#64
  mode  : t.mode ≠ .mode64
  limit : 0xFFF0 ≤ t.cs.limit.toNat
  phys  : t.translate (t.codeLinear t.ip) .fetch = .phys 0xFFFFFFF0#64

/-! ### The invariant -/

/-- What every step keeps: memory in its canonical form, and outside `Mode64` `rip[63:32] = 0` (R17). -/
structure Inv (s : State) : Prop where
  mem : s.mem.wf
  ip  : s.mode ≠ .mode64 → s.rip.toNat < 2 ^ 32

end Sys2Proof.Machine
end

