-- ==== Sys2Proof/Certificates/Slice0/Obligations.lean ====
section
/-! DEFINITION. The statements for the provers, from the numbered rules of the spec. Every statement about a RESULT VALUE
rests on the selector mapping of R85, which the spec restores by decision D1 (log entry 14). -/

open Sys2Proof Sys2Proof.Machine

/-! ### Encoding -/

/-- R55 to R74, R79: decoding the bytes of an instruction that is well formed in a mode gives that instruction, with
every operand at every value, whatever bytes follow. -/
def Obligations.DecodeReadsBackEncode : Prop :=
  ∀ (m : Mode) (i : Instr) (rest : List Byte), i.wf m = true → decode m (encode i ++ rest) = .form i

/-- R74: the encoding has `ILEN = npfx + 3 + 1 + 1 + nsib + ndisp + nimm` bytes. -/
def Obligations.EncodingHasIlenBytes : Prop :=
  ∀ i : Instr, (encode i).length = i.ilen

/-- R64, R69, R73, R79: what the decoder answers is well formed in the mode and lies within the bytes. -/
def Obligations.DecodedFormIsWellFormed : Prop :=
  ∀ (m : Mode) (bytes : List Byte) (i : Instr), decode m bytes = .form i → i.wf m = true ∧ i.ilen ≤ bytes.length

/-- R74, R79: only the first `ILEN` bytes decide a form. -/
def Obligations.DecodeReadsOnlyIlenBytes : Prop :=
  ∀ (m : Mode) (bytes rest : List Byte) (i : Instr), decode m bytes = .form i →
    decode m (bytes.take i.ilen ++ rest) = .form i

/-- R75: the encoding of a form with `VEX.W = 1` and every other field unchanged gets the verdict `UD`; and so does any
byte sequence the decoder accepts (whatever its prefix order and ignored bits) once bit 7 of `P2` is set. -/
def Obligations.VexWSetIsUd : Prop :=
  (∀ (m : Mode) (i : Instr) (rest : List Byte), i.fits m = true → m ≠ .mode16 →
    decode m (i.encodeWith 1#1 i.storedV ++ rest) = .ud i.ilen) ∧
  (∀ (m : Mode) (i : Instr) (pre : List Byte) (p1 p2 : Byte) (rest : List Byte), pre.length = i.prefixes.len →
    decode m (pre ++ 0xC4#8 :: p1 :: p2 :: rest) = .form i →
    decode m (pre ++ 0xC4#8 :: p1 :: (p2 ||| 0x80#8) :: rest) = .ud i.ilen)

/-- R76: in the immediate forms a stored `VEX.vvvv` other than `1111b` gets the verdict `UD` (outside `Mode64` with its
top bit 1, otherwise R61 refuses it); in the variable forms every value names a register. -/
def Obligations.ReservedVvvvIsUd : Prop :=
  (∀ (m : Mode) (i : Instr) (v : BitVec 4) (rest : List Byte), i.fits m = true → m ≠ .mode16 →
    i.imm8.isSome = true → v ≠ 15#4 → (m ≠ .mode64 → v.getLsbD 3 = true) →
    decode m (i.encodeWith 0#1 v ++ rest) = .ud i.ilen) ∧
  (∀ (m : Mode) (p : Prefixes) (dst any v : RegNum) (rm : Rm) (rest : List Byte),
    (Instr.var128 p dst v rm).wf m = true →
    decode m ((Instr.var128 p dst any rm).encodeWith 0#1 (~~~v) ++ rest) = .form (.var128 p dst v rm) ∧
    decode m ((Instr.var256 p dst any rm).encodeWith 0#1 (~~~v) ++ rest) = .form (.var256 p dst v rm))

/-- R56, R105: one of `F0H`, `66H`, `F2H`, `F3H` anywhere among the prefixes, or in `Mode64` a REX byte immediately before
`C4H`, gives the verdict `UD`. -/
def Obligations.ForbiddenByteIsUd : Prop :=
  (∀ (m : Mode) (i : Instr) (b : Byte) (before after rest : List Byte), i.fits m = true → m ≠ .mode16 →
    b = 0xF0#8 ∨ b = 0x66#8 ∨ b = 0xF2#8 ∨ b = 0xF3#8 → i.prefixes.bytes = before ++ after →
    decode m (before ++ b :: (after ++ (encode i).drop i.prefixes.len ++ rest)) = .ud (i.ilen + 1)) ∧
  (∀ (i : Instr) (b : Byte) (rest : List Byte), i.fits .mode64 = true → b.extractLsb' 4 4 = 4#4 →
    decode .mode64 (i.prefixes.bytes ++ b :: ((encode i).drop i.prefixes.len ++ rest)) = .ud (i.ilen + 1))

/-- R60: after its prefixes every accepted byte sequence has `C4H`, so a two-byte VEX prefix encodes no VPERMILPS; a
decoder that meets `C5H` there answers `NotVPERMILPS`. -/
def Obligations.TwoByteVexIsNotVpermilps : Prop :=
  (∀ (m : Mode) (bytes : List Byte) (i : Instr), decode m bytes = .form i →
    bytes[i.prefixes.len]? = some 0xC4#8) ∧
  (∀ (m : Mode) (p : Prefixes) (rest : List Byte), decode m (p.bytes ++ 0xC5#8 :: rest) = .notVpermilps)

/-- R78: a VEX prefix whose map, implied prefix and opcode are not one of the two triples is `NotVPERMILPS`. -/
def Obligations.OtherOpcodeIsNotVpermilps : Prop :=
  ∀ (m : Mode) (p : Prefixes) (p1 p2 op : Byte) (rest : List Byte),
    ¬(p1.extractLsb' 0 5 = 2#5 ∧ p2.extractLsb' 0 2 = 1#2 ∧ op = 0x0C#8) →
    ¬(p1.extractLsb' 0 5 = 3#5 ∧ p2.extractLsb' 0 2 = 1#2 ∧ op = 0x04#8) →
    decode m (p.bytes ++ 0xC4#8 :: p1 :: p2 :: op :: rest) = .notVpermilps

/-- R61: in `Mode32` `C4H` begins a VEX prefix only before a byte with bits `7:6` both 1; a VPERMILPS with `B̄ = 0` or the
top bit of the stored `vvvv` 0 is refused: every form with every stored `vvvv` and `W`, and every byte sequence with one of
the two opcode triples, whatever its addressing form. -/
def Obligations.Mode32HighBits : Prop :=
  (∀ (p : Prefixes) (p1 p2 op : Byte) (rest : List Byte), p1.extractLsb' 6 2 ≠ 3#2 →
    decode .mode32 (p.bytes ++ 0xC4#8 :: p1 :: p2 :: op :: rest) = .notVpermilps) ∧
  (∀ (i : Instr) (w : BitVec 1) (v : BitVec 4) (rest : List Byte), i.fits .mode64 = true → i.dst.hi = 0#1 →
    i.rm.fields.x = 0#1 → i.rm.fields.b = 1#1 ∨ v.getLsbD 3 = false →
    decode .mode32 (i.encodeWith w v ++ rest) = .refuse .mode32HighBit i.ilen) ∧
  (∀ (p : Prefixes) (p1 p2 op : Byte) (rest : List Byte), p1.extractLsb' 6 2 = 3#2 → p2.extractLsb' 0 2 = 1#2 →
    (p1.extractLsb' 0 5 = 2#5 ∧ op = 0x0C#8) ∨ (p1.extractLsb' 0 5 = 3#5 ∧ op = 0x04#8) →
    p1.extractLsb' 5 1 = 0#1 ∨ p2.extractLsb' 6 1 = 0#1 → 7 ≤ rest.length →
    ∃ len, 5 ≤ len ∧ len ≤ 13 ∧
      decode .mode32 (p.bytes ++ 0xC4#8 :: p1 :: p2 :: op :: rest) = .refuse .mode32HighBit len)

/-- R73: a memory operand under `67H` in `Mode32` is refused as `AddrSize16`, and any VPERMILPS fetched in `Mode16` as
`Mode16`. -/
def Obligations.SixteenBitFormsAreRefused : Prop :=
  (∀ (i : Instr) (rest : List Byte), i.fits .mode32 = true → i.prefixes.addr67 = true → i.rm.isMem = true →
    decode .mode32 (encode i ++ rest) = .refuse .addrSize16 i.ilen) ∧
  (∀ (p : Prefixes) (p1 p2 op : Byte) (rest : List Byte), p1.extractLsb' 6 2 = 3#2 → p2.extractLsb' 0 2 = 1#2 →
    (p1.extractLsb' 0 5 = 2#5 ∧ op = 0x0C#8) ∨ (p1.extractLsb' 0 5 = 3#5 ∧ op = 0x04#8) →
    decode .mode16 (p.bytes ++ 0xC4#8 :: p1 :: p2 :: op :: rest) = .refuse .mode16 0)

/-- R56: a second segment override, a second `67H`, and in `Mode64` a REX byte followed by one of the prefix bytes, REX
bytes among them (log entry 22), are refused. -/
def Obligations.RepeatedPrefixIsRefused : Prop :=
  (∀ (m : Mode) (p : Prefixes) (g : Seg) (rest : List Byte), p.seg.isSome = true →
    decode m (p.bytes ++ g.byte :: rest) = .refuse .prefixForm 0) ∧
  (∀ (m : Mode) (p : Prefixes) (rest : List Byte), p.addr67 = true →
    decode m (p.bytes ++ 0x67#8 :: rest) = .refuse .prefixForm 0) ∧
  (∀ (p : Prefixes) (b c : Byte) (rest : List Byte), b.extractLsb' 4 4 = 4#4 → isPrefix64 c = true →
    decode .mode64 (p.bytes ++ b :: c :: rest) = .refuse .prefixForm 0)

/-- R74, R79 steps 5c and 5d: any number `n` of the bytes `F0H`, `66H`, `F2H`, `F3H`, in any order and anywhere among the
prefixes of an instruction (`pre` without them is its prefixes), give `UD` while the length is at most 15, and `TooLong`
past it. -/
def Obligations.OverlongIsRefused : Prop :=
  ∀ (m : Mode) (i : Instr) (pre : List Byte) (n : Nat) (rest : List Byte), i.fits m = true → m ≠ .mode16 →
    pre.filter (fun b => !isForbidden b) = i.prefixes.bytes → pre.length = i.prefixes.len + n → 0 < n →
    decode m (pre ++ ((encode i).drop i.prefixes.len ++ rest))
      = if 15 < n + i.ilen then .refuse .tooLong (n + i.ilen) else .ud (n + i.ilen)

/-- Words of spec/95_test_vectors.md section 2.2, one of each form and two of one byte sequence whose meaning depends on
the mode (R80). -/
def Obligations.SpecWordsDecode : Prop :=
  decode .mode64 [0xC4#8, 0xE2#8, 0x69#8, 0x0C#8, 0xCB#8] = .form (.var128 ⟨none, false⟩ 1 2 (.reg 3)) ∧
  decode .mode64 [0xC4#8, 0xE3#8, 0x79#8, 0x04#8, 0xCA#8, 0x1B#8] = .form (.imm128 ⟨none, false⟩ 1 (.reg 2) 0x1B#8) ∧
  decode .mode64 [0xC4#8, 0x62#8, 0x2D#8, 0x0C#8, 0x4C#8, 0x8B#8, 0x10#8]
    = .form (.var256 ⟨none, false⟩ 9 10 (.mem (.sib 3 (some ⟨1, 2⟩) (.d8 0x10)))) ∧
  decode .mode64 [0xC4#8, 0x43#8, 0x7D#8, 0x04#8, 0x45#8, 0x00#8, 0x4E#8]
    = .form (.imm256 ⟨none, false⟩ 8 (.mem (.base 13 (.d8 0))) 0x4E#8) ∧
  decode .mode64 [0xC4#8, 0xE3#8, 0x79#8, 0x04#8, 0x0D#8, 0x00#8, 0x01#8, 0x00#8, 0x00#8, 0xFF#8]
    = .form (.imm128 ⟨none, false⟩ 1 (.mem (.ripRel 0x100)) 0xFF#8) ∧
  decode .mode32 [0xC4#8, 0xE3#8, 0x79#8, 0x04#8, 0x0D#8, 0x00#8, 0x01#8, 0x00#8, 0x00#8, 0xFF#8]
    = .form (.imm128 ⟨none, false⟩ 1 (.mem (.abs32 0x100)) 0xFF#8)

/-! ### Results and completion -/

/-- R87 with R36, R37: `VPERMILPS xmm1, xmm2, xmm3/m128` completes; the destination is the rule's five assignments
(selector mapping: decision D1, log entry 14), and nothing but it and `rip` changes. -/
def Obligations.Var128Result : Prop :=
  ∀ (p : Prefixes) (dst src1 : RegNum) (rm : Rm) (s : State) (src2 : Vec),
    Ready (.var128 p dst src1 rm) s → SourceIs (.var128 p dst src1 rm) s src2 →
    ∃ r : Vec, exec (.var128 p dst src1 rm) s = .next (After (.var128 p dst src1 rm) s r) ∧
      r.extractLsb' 0 32 = select4 ((s.readV src1).extractLsb' 0 128) (src2.extractLsb' 0 2) ∧
      r.extractLsb' 32 32 = select4 ((s.readV src1).extractLsb' 0 128) (src2.extractLsb' 32 2) ∧
      r.extractLsb' 64 32 = select4 ((s.readV src1).extractLsb' 0 128) (src2.extractLsb' 64 2) ∧
      r.extractLsb' 96 32 = select4 ((s.readV src1).extractLsb' 0 128) (src2.extractLsb' 96 2) ∧
      r.extractLsb' 128 128 = 0#128

/-- R88: `VPERMILPS xmm1, xmm2/m128, imm8` completes with the rule's five assignments (D1, log entry 14). -/
def Obligations.Imm128Result : Prop :=
  ∀ (p : Prefixes) (dst : RegNum) (rm : Rm) (imm : BitVec 8) (s : State) (src1 : Vec),
    Ready (.imm128 p dst rm imm) s → SourceIs (.imm128 p dst rm imm) s src1 →
    ∃ r : Vec, exec (.imm128 p dst rm imm) s = .next (After (.imm128 p dst rm imm) s r) ∧
      r.extractLsb' 0 32 = select4 (src1.extractLsb' 0 128) (imm.extractLsb' 0 2) ∧
      r.extractLsb' 32 32 = select4 (src1.extractLsb' 0 128) (imm.extractLsb' 2 2) ∧
      r.extractLsb' 64 32 = select4 (src1.extractLsb' 0 128) (imm.extractLsb' 4 2) ∧
      r.extractLsb' 96 32 = select4 (src1.extractLsb' 0 128) (imm.extractLsb' 6 2) ∧
      r.extractLsb' 128 128 = 0#128

/-- R89: `VPERMILPS ymm1, ymm2, ymm3/m256` completes with the rule's eight assignments (D1, log entry 14). -/
def Obligations.Var256Result : Prop :=
  ∀ (p : Prefixes) (dst src1 : RegNum) (rm : Rm) (s : State) (src2 : Vec),
    Ready (.var256 p dst src1 rm) s → SourceIs (.var256 p dst src1 rm) s src2 →
    ∃ r : Vec, exec (.var256 p dst src1 rm) s = .next (After (.var256 p dst src1 rm) s r) ∧
      r.extractLsb' 0 32 = select4 ((s.readV src1).extractLsb' 0 128) (src2.extractLsb' 0 2) ∧
      r.extractLsb' 32 32 = select4 ((s.readV src1).extractLsb' 0 128) (src2.extractLsb' 32 2) ∧
      r.extractLsb' 64 32 = select4 ((s.readV src1).extractLsb' 0 128) (src2.extractLsb' 64 2) ∧
      r.extractLsb' 96 32 = select4 ((s.readV src1).extractLsb' 0 128) (src2.extractLsb' 96 2) ∧
      r.extractLsb' 128 32 = select4 ((s.readV src1).extractLsb' 128 128) (src2.extractLsb' 128 2) ∧
      r.extractLsb' 160 32 = select4 ((s.readV src1).extractLsb' 128 128) (src2.extractLsb' 160 2) ∧
      r.extractLsb' 192 32 = select4 ((s.readV src1).extractLsb' 128 128) (src2.extractLsb' 192 2) ∧
      r.extractLsb' 224 32 = select4 ((s.readV src1).extractLsb' 128 128) (src2.extractLsb' 224 2)

/-- R90: `VPERMILPS ymm1, ymm2/m256, imm8` completes with the rule's eight assignments (D1, log entry 14). -/
def Obligations.Imm256Result : Prop :=
  ∀ (p : Prefixes) (dst : RegNum) (rm : Rm) (imm : BitVec 8) (s : State) (src1 : Vec),
    Ready (.imm256 p dst rm imm) s → SourceIs (.imm256 p dst rm imm) s src1 →
    ∃ r : Vec, exec (.imm256 p dst rm imm) s = .next (After (.imm256 p dst rm imm) s r) ∧
      r.extractLsb' 0 32 = select4 (src1.extractLsb' 0 128) (imm.extractLsb' 0 2) ∧
      r.extractLsb' 32 32 = select4 (src1.extractLsb' 0 128) (imm.extractLsb' 2 2) ∧
      r.extractLsb' 64 32 = select4 (src1.extractLsb' 0 128) (imm.extractLsb' 4 2) ∧
      r.extractLsb' 96 32 = select4 (src1.extractLsb' 0 128) (imm.extractLsb' 6 2) ∧
      r.extractLsb' 128 32 = select4 (src1.extractLsb' 128 128) (imm.extractLsb' 0 2) ∧
      r.extractLsb' 160 32 = select4 (src1.extractLsb' 128 128) (imm.extractLsb' 2 2) ∧
      r.extractLsb' 192 32 = select4 (src1.extractLsb' 128 128) (imm.extractLsb' 4 2) ∧
      r.extractLsb' 224 32 = select4 (src1.extractLsb' 128 128) (imm.extractLsb' 6 2)

/-- R85: `Select4(SRC, c) = SRC[32c+31:32c]` (the spec's restoration, decision D1, log entry 14). -/
def Obligations.Select4PicksElement : Prop :=
  ∀ (src : Lane) (c : BitVec 2), select4 src c = src.extractLsb' (32 * c.toNat) 32

/-- R96: after a 128-bit form bits 255:128 of the destination are 0; and no form leaves a bit of the destination as it
was: where the destination is no source, its old value plays no part. -/
def Obligations.DestinationWrittenWhole : Prop :=
  (∀ (i : Instr) (s t : State), exec i s = .next t → i.width = .w128 →
    (t.readV i.dst).extractLsb' 128 128 = 0#128) ∧
  (∀ (i : Instr) (s t : State) (old : Vec), exec i s = .next t → i.vvvv ≠ some i.dst → i.rm ≠ .reg i.dst →
    exec i (s.writeV i.dst old) = .next t)

/-- R95: each destination element is an element of SRC1 of the same 128-bit lane; no form moves an element from one lane
to the other. (It does not depend on the selector mapping.) -/
def Obligations.ElementsStayInTheirLane : Prop :=
  ∀ (i : Instr) (s : State) (src : Vec), Ready i s → SourceIs i s src →
    ∃ t, exec i s = .next t ∧ ∀ k < elemCount i.width, ∃ j < 4,
      elem (t.readV i.dst) k = elem (src1Of i s src) (4 * (k / 4) + j)

/-- R94: two runs of a variable form from states with the same SRC1, whose control operands agree in bits 1:0 of every
element, complete with the same destination, whatever the ignored bits. -/
def Obligations.IgnoredControlBits : Prop :=
  ∀ (i : Instr) (s s' : State) (ctl ctl' : Vec), Ready i s → Ready i s' → SourceIs i s ctl → SourceIs i s' ctl' →
    ∀ v : RegNum, i.vvvv = some v → s.readV v = s'.readV v →
    (∀ k < elemCount i.width, ctl.extractLsb' (32 * k) 2 = ctl'.extractLsb' (32 * k) 2) →
    ∃ t t', exec i s = .next t ∧ exec i s' = .next t' ∧ t.readV i.dst = t'.readV i.dst

/-- R91: the immediate form equals the variable form of the same width whose control element `k` is the immediate's field
`k mod 4`, zero-extended. -/
def Obligations.ImmediateEqualsVariable : Prop :=
  (∀ (p : Prefixes) (dst r c : RegNum) (imm : BitVec 8) (s : State),
    Ready (.imm128 p dst (.reg r) imm) s → Ready (.var128 p dst r (.reg c)) s →
    (∀ k < 4, elem (s.readV c) k = (imm.extractLsb' (2 * (k % 4)) 2).setWidth 32) →
    ∃ t t', exec (.imm128 p dst (.reg r) imm) s = .next t ∧ exec (.var128 p dst r (.reg c)) s = .next t' ∧
      t.readV dst = t'.readV dst) ∧
  (∀ (p : Prefixes) (dst r c : RegNum) (imm : BitVec 8) (s : State),
    Ready (.imm256 p dst (.reg r) imm) s → Ready (.var256 p dst r (.reg c)) s →
    (∀ k < 8, elem (s.readV c) k = (imm.extractLsb' (2 * (k % 4)) 2).setWidth 32) →
    ∃ t t', exec (.imm256 p dst (.reg r) imm) s = .next t ∧ exec (.var256 p dst r (.reg c)) s = .next t' ∧
      t.readV dst = t'.readV dst)

/-! ### Frames -/

/-- R28: an instruction that completes (each of the four forms) changes the register of operand 1 and `rip` and nothing
else: every other vector register, every general register, the flags, MXCSR, the segment, control and model-specific
registers, every byte of memory, and the model's own fields are as before. -/
def Obligations.FrameOfCompletion : Prop :=
  ∀ (i : Instr) (s t : State), exec i s = .next t →
    (∀ n : RegNum, n ≠ i.dst → t.readV n = s.readV n) ∧ t.x = s.x ∧
    t.rflags = s.rflags ∧ t.mxcsr = s.mxcsr ∧
    t.cr0 = s.cr0 ∧ t.cr2 = s.cr2 ∧ t.cr3 = s.cr3 ∧ t.cr4 = s.cr4 ∧ t.xcr0 = s.xcr0 ∧ t.efer = s.efer ∧
    t.csL = s.csL ∧ t.csD = s.csD ∧ t.cpl = s.cpl ∧
    t.es = s.es ∧ t.cs = s.cs ∧ t.ss = s.ss ∧ t.ds = s.ds ∧ t.fs = s.fs ∧ t.gs = s.gs ∧
    t.paging = s.paging ∧ t.special = s.special ∧ t.breakpointArmed = s.breakpointArmed ∧ t.params = s.params ∧
    t.textBase = s.textBase ∧ t.textEnd = s.textEnd ∧ t.env = s.env ∧ t.tick = s.tick ∧
    (∀ a : Nat, t.mem.read a = s.mem.read a)

/-- R28, R49: a step that completes changes one vector register and `rip` by its instruction, lets the batch of the other
agents' writes land in memory and leaves the queue of batches (log entry 9), and advances the model's counter (log entry
10); everything else is as before. -/
def Obligations.FrameOfStep : Prop :=
  ∀ s t : State, step s = .next t →
    ∃ (i : Instr) (bytes : List Byte), Fetches s bytes ∧ decode s.mode bytes = .form i ∧
      (∀ n : RegNum, n ≠ i.dst → t.readV n = s.readV n) ∧
      t.rip = s.nextIp i.ilen ∧
      (∀ a : Nat, t.mem.read a = (s.mem.applyWrites s.batch).read a) ∧ t.env = s.env.tail ∧ t.tick = s.tick + 1 ∧
      t.x = s.x ∧ t.rflags = s.rflags ∧ t.mxcsr = s.mxcsr ∧
      t.cr0 = s.cr0 ∧ t.cr2 = s.cr2 ∧ t.cr3 = s.cr3 ∧ t.cr4 = s.cr4 ∧ t.xcr0 = s.xcr0 ∧ t.efer = s.efer ∧
      t.csL = s.csL ∧ t.csD = s.csD ∧ t.cpl = s.cpl ∧ t.mode = s.mode ∧
      t.es = s.es ∧ t.cs = s.cs ∧ t.ss = s.ss ∧ t.ds = s.ds ∧ t.fs = s.fs ∧ t.gs = s.gs ∧
      t.paging = s.paging ∧ t.special = s.special ∧ t.breakpointArmed = s.breakpointArmed ∧ t.params = s.params ∧
      t.textBase = s.textBase ∧ t.textEnd = s.textEnd

/-- R17: a completed instruction leaves `rip` exactly `ILEN` higher (of EIP outside `Mode64`), below the end of the address
space; an instruction whose end would wrap, or in `Mode64` with a byte that is not canonical, is refused. -/
def Obligations.RipAdvancesByIlen : Prop :=
  (∀ (i : Instr) (s t : State), exec i s = .next t →
    (s.mode = .mode64 → t.rip.toNat = s.rip.toNat + i.ilen ∧
      ∀ k < i.ilen, s.canonical (s.rip + BitVec.ofNat 64 k) = true) ∧
    (s.mode ≠ .mode64 → t.rip.toNat = s.rip.toNat % 2 ^ 32 + i.ilen ∧ t.rip.toNat < 2 ^ 32)) ∧
  (∀ (i : Instr) (s : State), s.mode = .mode64 →
    (2 ^ 64 ≤ s.rip.toNat + i.ilen ∨ ∃ k < i.ilen, s.canonical (s.rip + BitVec.ofNat 64 k) = false) →
    exec i s = .refused .ripWrap) ∧
  (∀ (i : Instr) (s : State), s.mode = .mode32 → 2 ^ 32 ≤ s.rip.toNat % 2 ^ 32 + i.ilen →
    exec i s = .refused .ripWrap)

/-- R20: VPERMILPS writes no flag, and of RFLAGS it reads only VM (bit 17) and AC (bit 18): with any other flags the
outcome is the same. -/
def Obligations.FlagsReadOnlyVmAndAc : Prop :=
  ∀ (i : Instr) (s : State) (f : BitVec 64), f.getLsbD 17 = s.rflags.getLsbD 17 → f.getLsbD 18 = s.rflags.getLsbD 18 →
    (∀ t, exec i s = .next t → t.rflags = s.rflags) ∧
    exec i { s with rflags := f } = Out.andThen (exec i s) fun t => .next { t with rflags := f }

/-- R21: MXCSR is neither written nor read: with any other MXCSR the outcome is the same. -/
def Obligations.MxcsrPlaysNoPart : Prop :=
  ∀ (i : Instr) (s : State) (c : BitVec 32),
    (∀ t, exec i s = .next t → t.mxcsr = s.mxcsr) ∧
    exec i { s with mxcsr := c } = Out.andThen (exec i s) fun t => .next { t with mxcsr := c }

/-- R120: with a register operand the instruction has the same outcome at every privilege level. -/
def Obligations.SameAtEveryPrivilege : Prop :=
  ∀ (i : Instr) (s : State) (c : BitVec 2) (r : RegNum), i.rm = .reg r →
    exec i { s with cpl := c } = Out.andThen (exec i s) fun t => .next { t with cpl := c }

/-! ### Exceptions and refusals -/

/-- R103: `#UD` in real-address and virtual-8086 mode, so that VPERMILPS never executes there. -/
def Obligations.UdInRealAndV86 : Prop :=
  (∀ (i : Instr) (s : State), s.mode = .modeReal ∨ s.mode = .modeV86 → i.fits s.mode = true →
    exec i s = .fault .ud) ∧
  (∀ s t : State, s.mode = .modeReal ∨ s.mode = .modeV86 → step s ≠ .next t)

/-- R104: `#UD` if `CR4.OSXSAVE = 0` or `XCR0[2:1] != 11b`, whatever `CR0.EM`, `CR0.TS` and the operand (R113). -/
def Obligations.UdUnlessStateEnabled : Prop :=
  ∀ (i : Instr) (s : State), Admitted i s → s.osxsave = false ∨ s.xcr0Avx ≠ 3#2 → exec i s = .fault .ud

/-- R106: `#UD` if the CPUID feature flag `AVX` is 0. -/
def Obligations.UdWithoutAvxFlag : Prop :=
  ∀ (i : Instr) (s : State), Admitted i s → s.params.cpuidAvx = false → exec i s = .fault .ud

/-- R107: `#NM` if `CR0.TS = 1`, before any fault of the operand (R113). -/
def Obligations.NmWhenTaskSwitched : Prop :=
  ∀ (i : Instr) (s : State), Admitted i s → LAvxEnabled s → s.em = false → s.ts = true → exec i s = .fault .nm

/-- R126: `CR0.EM = 1` is refused, before `#NM` (R113). -/
def Obligations.EmulationBitIsRefused : Prop :=
  ∀ (i : Instr) (s : State), Admitted i s → LAvxEnabled s → s.em = true → exec i s = .refused .cr0Em

/-- R113 steps 1 and 2, R102: what a step answers on the decoder's verdict on the bytes at `rip`, in every enabling state:
the refusal the verdict names, `NotVPERMILPS`, or `#UD`; but `RipWrap` (R17) before each of them, and before the execution
of a form, where the length is known and the instruction runs off the address space. -/
def Obligations.VerdictDecidesStep : Prop :=
  ∀ (s : State) (bytes : List Byte), LQuiet s → TextUnwritten s → Fetches s bytes →
    (∀ (r : DecodeRefusal) (len : Nat), decode s.mode bytes = .refuse r len →
      step s = .refused (if s.ripWraps len then .ripWrap else match r with
        | .prefixForm => .prefixForm
        | .mode32HighBit => .mode32HighBit
        | .mode16 => .mode16
        | .addrSize16 => .addrSize16
        | .tooLong => .tooLong)) ∧
    (decode s.mode bytes = .notVpermilps → step s = .refused .notVpermilps) ∧
    (∀ len, decode s.mode bytes = .ud len → s.ripWraps len = false → step s = .fault .ud) ∧
    (∀ len, decode s.mode bytes = .ud len → s.ripWraps len = true → step s = .refused .ripWrap) ∧
    (∀ i, decode s.mode bytes = .form i → s.ripWraps i.ilen = true → step s = .refused .ripWrap)

/-- R40: an address is canonical when bits `63:LINBITS-1` are all equal; in `Mode64` an operand that wraps `2^64` is
refused, and one with a byte that is not canonical raises `#SS(0)` in the SS segment and `#GP(0)` otherwise. -/
def Obligations.CanonicalOperandCheck : Prop :=
  (∀ (s : State) (a : Addr), s.canonical a = true ↔
    ∀ j, s.params.linBits.width - 1 ≤ j → j < 64 → a.getLsbD j = a.getLsbD 63) ∧
  (∀ (i : Instr) (m : MemForm) (s : State), Ready i s → i.rm = .mem m → s.mode = .mode64 →
    (2 ^ 64 < (s.lin i m).toNat + i.width.bytes → exec i s = .refused .addressWrap) ∧
    ((s.lin i m).toNat + i.width.bytes ≤ 2 ^ 64 →
      (∃ k < i.width.bytes, s.canonical (s.byteLinear (s.lin i m) k) = false) →
      exec i s = .fault (if s.seg i m = .ss then .ss 0 else .gp 0)))

/-- R41: in `Mode32` `SegCheck` holds when the register is usable and readable and all bytes lie inside its limit without
wrapping `2^32` (that an offset is inside when it is at most the limit, with no expand-down segment, is the model's reading
of R41's abstract predicate: DEDUCED, log entry 16); where it fails the access raises `#SS(0)` in the SS segment and `#GP(0)`
otherwise. -/
def Obligations.SegmentCheckFault : Prop :=
  (∀ (s : State) (g : Seg) (ea : Addr) (n : Nat), 0 < n → (s.segCheck g ea n = true ↔
    (s.segReg g).usable = true ∧ (s.segReg g).readable = true ∧
      ∀ k < n, ea.toNat + k < 2 ^ 32 ∧ ea.toNat + k ≤ (s.segReg g).limit.toNat)) ∧
  (∀ (i : Instr) (m : MemForm) (s : State), Ready i s → i.rm = .mem m → s.mode = .mode32 →
    s.segCheck (s.seg i m) (s.ea i m) i.width.bytes = false →
    exec i s = .fault (if s.seg i m = .ss then .ss 0 else .gp 0))

/-- R45, R110: a page fault of any byte of the operand raises `#PF` with no change; the address reported is that of a
faulting byte that is the operand's first or the first of a page (pages of 4096 bytes: log entry 5), the code the
oracle's for it with bit 1 cleared. -/
def Obligations.PageFaultOfOperand : Prop :=
  ∀ (i : Instr) (m : MemForm) (s : State) (k : Nat) (c : BitVec 6), Ready i s → i.rm = .mem m → AddressOk i m s →
    k < i.width.bytes → s.translate (s.byteLinear (s.lin i m) k) .read = .pageFault c →
    ∃ j d, j < i.width.bytes ∧ (j = 0 ∨ (s.byteLinear (s.lin i m) j).extractLsb' 0 12 = 0#12) ∧
      s.translate (s.byteLinear (s.lin i m) j) .read = .pageFault d ∧
      exec i s = .fault (.pf ((d &&& ~~~2#6).setWidth 32) (s.byteLinear (s.lin i m) j))

/-- R44, R111: alignment checking is enabled when `CR0.AM`, `EFLAGS.AC` and `CPL = 3`; while it is enabled and the operand
is not a multiple of its size, `Always` raises `#AC(0)`, `Never` completes, `MayFault` does one or the other; not enabled
or aligned, every policy completes. -/
def Obligations.AlignmentCheckPolicy : Prop :=
  (∀ s : State, s.alignEnabled = true ↔ s.cr0.getLsbD 18 = true ∧ s.rflags.getLsbD 18 = true ∧ s.cpl = 3#2) ∧
  (∀ (i : Instr) (m : MemForm) (s : State) (phys : Nat → Addr), Ready i s → i.rm = .mem m → AddressOk i m s →
    Translates i m s phys →
    (s.alignEnabled = false ∨ (s.lin i m).toNat % i.width.bytes = 0 → ∃ r, exec i s = .next (After i s r)) ∧
    (s.alignEnabled = true → (s.lin i m).toNat % i.width.bytes ≠ 0 →
      (s.params.acPolicy = .always → exec i s = .fault (.ac 0)) ∧
      (s.params.acPolicy = .never → ∃ r, exec i s = .next (After i s r)) ∧
      (s.params.acPolicy = .mayFault → exec i s = .fault (.ac 0) ∨ ∃ r, exec i s = .next (After i s r))))

/-- R47, R113: an operand with a byte in memory that is not ordinary is refused, whatever the enabling state. -/
def Obligations.NonIdempotentIsRefused : Prop :=
  ∀ (i : Instr) (m : MemForm) (s : State) (k : Nat) (p : Addr), LMode s → i.wf s.mode = true →
    s.ripWraps i.ilen = false → i.rm = .mem m → AddressOk i m s → k < i.width.bytes →
    s.translate (s.byteLinear (s.lin i m) k) .read = .phys p → s.isSpecial p = true →
    exec i s = .refused .nonIdempotentMemory

/-- R124 (TF's bit: log entry 6): with a breakpoint armed or `TF = 1` the run is refused. -/
def Obligations.DebugIsRefused : Prop :=
  ∀ s : State, s.breakpointArmed = true ∨ s.rflags.getLsbD 8 = true → step s = .refused .debugArmed

/-- D18's refusal of a write by another agent to the program text, in the model's form: the text is the fields `textBase` to
`textEnd`, and a step is refused for a write in any batch still to come, also one that lands after the run is over (the
model's choice: log entry 8, DESIGN CHOICE; the batches are those of log entry 9). R52 states the premise and no
refusal. -/
def Obligations.TextWriteIsRefused : Prop :=
  ∀ (s : State) (batch : List EnvWrite) (w : EnvWrite) (k : Nat), LQuiet s → batch ∈ s.env → w ∈ batch →
    k < s.textEnd.toNat - s.textBase.toNat →
    s.translate (s.codeLinear (s.textBase + BitVec.ofNat 64 k)) .fetch = .phys w.addr →
    step s = .refused .textWritten

/-- R46, R49: while other agents write during the step, each byte of the operand is the memory's content after some number
of their writes, each byte at a moment of its own; the instruction completes with the result of that operand, which the
result statements give for an operand that no agent writes. -/
def Obligations.TornReadSeesSomeMoment : Prop :=
  ∀ (i : Instr) (m : MemForm) (s : State) (phys : Nat → Addr), Ready i s → i.rm = .mem m → Readable i m s phys →
    ∃ (cut : Nat → Nat) (src : Vec), (∀ k, cut k ≤ s.batch.length) ∧
      src = joinBytes ((List.range i.width.bytes).map fun k =>
        (s.mem.applyWrites (s.batch.take (cut k))).read (phys k).toNat) ∧
      s.readRm i = .next src ∧ exec i s = .next (After i s (resultOf i s src))

/-- R112, R17, R38: where the bytes up to byte `k` leave the verdict open and byte `k` cannot be fetched, that fault or
refusal is the step's outcome; so in `Mode32` `#GP(0)` past the code segment's limit, and `#PF` with the oracle's code and
the byte's linear address where the oracle answers a page fault. -/
def Obligations.FetchFaultEndsStep : Prop :=
  ∀ (s : State) (bytes : List Byte), LQuiet s → TextUnwritten s → Fetches s bytes → decode s.mode bytes = .short →
    (∀ f, s.fetchByte bytes.length = .fault f → step s = .fault f) ∧
    (∀ r, s.fetchByte bytes.length = .refused r → step s = .refused r) ∧
    (s.mode = .mode32 → s.rip.toNat % 2 ^ 32 + bytes.length < 2 ^ 32 →
      s.cs.limit.toNat < s.rip.toNat % 2 ^ 32 + bytes.length → step s = .fault (.gp 0)) ∧
    (∀ c : BitVec 6,
      (s.mode = .mode64 ∧ s.rip.toNat + bytes.length < 2 ^ 64 ∧
        s.canonical (s.rip + BitVec.ofNat 64 bytes.length) = true) ∨
      (s.mode = .mode32 ∧ s.rip.toNat % 2 ^ 32 + bytes.length ≤ s.cs.limit.toNat) →
      s.translate (s.codeLinear (s.ip + BitVec.ofNat 64 bytes.length)) .fetch = .pageFault c →
      step s = .fault (.pf (c.setWidth 32) (s.codeLinear (s.ip + BitVec.ofNat 64 bytes.length))))

/-! ### Operands -/

/-- R68, R69, R71: the effective address is the exact integer sum of base, scaled index and signed displacement (or of the
next instruction's address and the displacement) modulo `2^A`. -/
def Obligations.EffectiveAddressIsSumModuloSize : Prop :=
  ∀ (s : State) (p : Prefixes) (len : Nat) (m : MemForm),
    ((s.effAddr p len m).toNat : Int) = s.exactSum p len m % (if s.addrSize64 p then 2 ^ 64 else 2 ^ 32)

/-- R39, R72: the default segment is SS for a base register 4 or 5 and DS for every other form; without an override it is the
segment; in `Mode64` an override naming ES, CS, SS or DS changes nothing, and any other honoured override is the segment. -/
def Obligations.SegmentChoice : Prop :=
  (∀ (r : RegNum) (i : Option Index) (d : Disp),
    defaultSeg (.base r d) = (if r = 4#4 ∨ r = 5#4 then .ss else .ds) ∧
    defaultSeg (.sib r i d) = (if r = 4#4 ∨ r = 5#4 then .ss else .ds)) ∧
  (∀ (i : Option Index) (d : BitVec 32),
    defaultSeg (.sibNoBase i d) = .ds ∧ defaultSeg (.ripRel d) = .ds ∧ defaultSeg (.abs32 d) = .ds) ∧
  (∀ (s : State) (a : Bool) (m : MemForm), s.operandSeg ⟨none, a⟩ m = defaultSeg m) ∧
  (∀ (s : State) (a : Bool) (g : Seg) (m : MemForm), s.mode = .mode64 →
    s.operandSeg ⟨some g, a⟩ m = if g = .fs ∨ g = .gs then g else defaultSeg m) ∧
  (∀ (s : State) (a : Bool) (g : Seg) (m : MemForm), s.mode ≠ .mode64 → s.operandSeg ⟨some g, a⟩ m = g)

/-- R42: with `CR0.PG = 0` translation is the identity. -/
def Obligations.TranslationOffIsIdentity : Prop :=
  ∀ (s : State) (lin : Addr) (kind : AccessKind), s.cr0.getLsbD 31 = false → s.translate lin kind = .phys lin

/-- R37: byte `k` of the value read is the byte at the `k`-th lowest address, and a 16-byte operand has no bits above. -/
def Obligations.LittleEndianOperand : Prop :=
  ∀ bs : List Byte, bs.length ≤ 32 →
    (∀ k (h : k < bs.length), (joinBytes bs).extractLsb' (8 * k) 8 = bs[k]) ∧
    (∀ k, bs.length ≤ k → (joinBytes bs).extractLsb' (8 * k) 8 = 0#8)

/-- Canonical memories that read the same everywhere are the same data. -/
def Obligations.CanonicalMemoryIsUnique : Prop :=
  ∀ m m' : Memory, m.wf → m'.wf → (∀ a, m.read a = m'.read a) → m = m'

/-! ### Reset, step, invariants -/

/-- R32: the control state after RESET, so `MODE` is `ModeReal` and every VPERMILPS raises `#UD`. R32 gives CR0 and EFLAGS
32 bits; bits 63:32 of `cr0` and `rflags` are in `ResetRegisters`. -/
def Obligations.ResetControlState : Prop :=
  State.reset.cr0.setWidth 32 = 0x60000010#32 ∧ State.reset.pe = false ∧ State.reset.em = false ∧ State.reset.ts = false ∧
  State.reset.am = false ∧ State.reset.pg = false ∧ State.reset.cr4 = 0 ∧ State.reset.osxsave = false ∧
  State.reset.xcr0 = 1 ∧ State.reset.rflags.setWidth 32 = 2#32 ∧ State.reset.vm = false ∧ State.reset.ac = false ∧
  State.reset.efer = 0 ∧ State.reset.lma = false ∧ State.reset.cpl = 0 ∧ State.reset.mxcsr = 0x1F80#32 ∧
  State.reset.mode = .modeReal ∧
  ∀ i : Instr, i.fits .modeReal = true → exec i State.reset = .fault .ud

/-- R30, R31, R33, R34: every vector register is 0 after RESET, `rip` is FFF0H and the first instruction is fetched from
FFFF_FFF0H; the registers that R33 gives as 0 are 0, RAX among them (R33 says so of a processor whose self-test passed;
that the model's did is its choice, log entry 3, DESIGN CHOICE, as RDX is, which the statement leaves out); the segment
registers as R34 says; and bits 63:32 of `cr0` and `rflags` are 0, which no rule says (PRESUMED, log entry 28). -/
def Obligations.ResetRegisters : Prop :=
  (∀ n : RegNum, State.reset.readV n = 0) ∧ State.reset.rip = 0xFFF0#64 ∧
  State.reset.codeLinear State.reset.ip = 0xFFFFFFF0#64 ∧
  (∀ n : RegNum, n ≠ 2#4 → State.reset.readX n = 0) ∧
  State.reset.cs.selector = 0xF000#16 ∧ State.reset.cs.base = 0xFFFF0000#64 ∧
  (∀ g : Seg, (State.reset.segReg g).limit = 0xFFFF#32) ∧
  (∀ g : Seg, g ≠ .cs → (State.reset.segReg g).selector = 0 ∧ (State.reset.segReg g).base = 0) ∧
  State.reset.cr0.extractLsb' 32 32 = 0 ∧ State.reset.rflags.extractLsb' 32 32 = 0

/-- R86: where no debugging is armed, the text is not written and the bytes fetched at `rip` decode to an instruction, the
step is that instruction's execution, after which the other agents' batch lands and the model's counter advances (log
entries 9, 10). -/
def Obligations.StepRunsDecodedInstruction : Prop :=
  ∀ (s : State) (bytes : List Byte) (i : Instr), LQuiet s → TextUnwritten s → Fetches s bytes →
    decode s.mode bytes = .form i → step s = Out.andThen (exec i s) fun t => .next t.envAdvance

/-- R132 as the model launches (log entry 11): the bytes of any instruction well formed in `Mode64`, placed at reset, are
what the next step runs. -/
def Obligations.PlacedInstructionRuns : Prop :=
  ∀ i : Instr, i.wf .mode64 = true →
    step (State.reset.place (encode i))
      = Out.andThen (exec i (State.reset.place (encode i))) fun t => .next t.envAdvance

/-- R31 with INIT (R30): a state that INIT leaves (as log entry 25 reads the spec) has the vector registers it had and
fetches its next byte from physical address FFFF_FFF0H. -/
def Obligations.InitFetchAddress : Prop :=
  ∀ s t : State, InitLeaves s t →
    (∀ n : RegNum, t.readV n = s.readV n) ∧ t.codeLinear t.ip = 0xFFFFFFF0#64 ∧
    t.fetchByte 0 = .next (t.mem.read 0xFFFFFFF0)

/-- R132, R136: a program launched under the premises, whose memory operands can be read, runs to its end: `k` instructions
take exactly `k` steps, every one of them `Next`. -/
def Obligations.ProgramRunsToEnd : Prop :=
  ∀ (p : Program) (s : State), Inv s → Launched p s → OperandsReadable p s → ∃ t, Run p.length s t

/-- R17, R28, R74: a next state of a step has the same text and mode, and a `rip` higher by 5 to 13. -/
def Obligations.StepRaisesRip : Prop :=
  ∀ s t : State, Inv s → step s = .next t →
    t.textBase = s.textBase ∧ t.textEnd = s.textEnd ∧ t.mode = s.mode ∧
    s.rip.toNat + 5 ≤ t.rip.toNat ∧ t.rip.toNat ≤ s.rip.toNat + 13

/-- R136, R74, R17: a run of `k` steps, in `Mode64` or from a state that meets the invariant (so in `Mode32` too), covers at
least `5k` and at most `13k` bytes of text, and ends: there is no loop. -/
def Obligations.RunLengthBounded : Prop :=
  ∀ (k : Nat) (s t : State), s.mode = .mode64 ∨ Inv s → RunEnds k s t →
    s.rip.toNat + 5 * k ≤ s.textEnd.toNat ∧ s.textEnd.toNat ≤ s.rip.toNat + 13 * k ∧ t.rip = s.textEnd

/-- The invariant: memory keeps its canonical form, and outside `Mode64` `rip[63:32]` stays 0 (R17). -/
def Obligations.StepKeepsInvariant : Prop :=
  ∀ s t : State, Inv s → step s = .next t → Inv t

/-- The invariant holds at reset. -/
def Obligations.ResetMeetsInvariant : Prop :=
  Inv State.reset
end

