-- ==== Sys2Proof/Laws/Decode.lean ====
section
/-! SUPPORT. The parts of the decoder read back the parts of the encoder: prefixes, the fields of P1, P2 and ModRM, the
displacement, the SIB byte and the `r/m` operand. -/

namespace Sys2Proof

/-! ### Prefixes -/

theorem segOfByte_byte (g : Seg) : segOfByte g.byte = some g := by cases g <;> rfl

/-- What step 1 has seen after the prefixes of an accepted encoding. -/
def Scan.of (p : Prefixes) : Scan :=
  { seg := p.seg, addr67 := p.addr67, bad := false, rex := false, count := p.len }

/-- A byte that step 1 takes for no prefix. -/
abbrev notPrefix (m : Mode) (c : Byte) : Prop :=
  segOfByte c = none ∧ c ≠ 0x67#8 ∧ isForbidden c = false ∧ (m = .mode64 && isRex c) = false

theorem scan_notPrefix {m : Mode} {a : Scan} {c : Byte} {t : List Byte} (h : notPrefix m c) :
    scanPrefixes m a (c :: t) = .done a (c :: t) := by
  obtain ⟨h1, h2, h3, h4⟩ := h
  rw [scanPrefixes]
  simp [h1, h2, h3, h4]

theorem notPrefix_C4 (m : Mode) : notPrefix m 0xC4#8 := by
  cases m <;> decide

theorem notPrefix_C5 (m : Mode) : notPrefix m 0xC5#8 := by
  cases m <;> decide

theorem scan_byte67 {m : Mode} {a : Scan} {t : List Byte} (h : a.addr67 = false) :
    scanPrefixes m a (0x67#8 :: t) = scanPrefixes m { a with addr67 := true, count := a.count + 1 } t := by
  rw [scanPrefixes]
  have h1 : segOfByte 0x67#8 = none := by decide
  simp [h1, h]

theorem scan_seg {m : Mode} {a : Scan} {g : Seg} {t : List Byte} (h : a.seg = none) :
    scanPrefixes m a (g.byte :: t) = scanPrefixes m { a with seg := some g, count := a.count + 1 } t := by
  rw [scanPrefixes]
  simp [segOfByte_byte, h]

theorem scan_forbidden {m : Mode} {a : Scan} {b : Byte} {t : List Byte} (h : isForbidden b = true) :
    scanPrefixes m a (b :: t) = scanPrefixes m { a with bad := true, count := a.count + 1 } t := by
  have hb : b = 0xF0#8 ∨ b = 0x66#8 ∨ b = 0xF2#8 ∨ b = 0xF3#8 := by
    simpa [isForbidden, or_assoc] using h
  rw [scanPrefixes]
  rcases hb with rfl | rfl | rfl | rfl <;> rfl

/-- Step 1 on the prefix bytes of an accepted encoding, from any state that has seen none of its kinds. -/
theorem scan_prefixes {m : Mode} {a : Scan} (p : Prefixes) {c : Byte} {t : List Byte}
    (h1 : a.seg = none) (h2 : a.addr67 = false) (hc : notPrefix m c) :
    scanPrefixes m a (p.bytes ++ c :: t)
      = .done { a with seg := p.seg, addr67 := p.addr67, count := a.count + p.len } (c :: t) := by
  obtain ⟨sg, a67⟩ := p
  obtain ⟨s0, a0, b0, r0, n0⟩ := a
  simp only at h1 h2
  subst h1 h2
  cases sg with
  | none =>
    cases a67 with
    | false => simp [Prefixes.bytes, Prefixes.len, scan_notPrefix hc]
    | true => simp [Prefixes.bytes, Prefixes.len, scan_byte67, scan_notPrefix hc]
  | some g =>
    cases a67 with
    | false => simp [Prefixes.bytes, Prefixes.len, scan_seg, scan_notPrefix hc]
    | true => simp [Prefixes.bytes, Prefixes.len, scan_seg, scan_byte67, scan_notPrefix hc, Nat.add_assoc]

theorem scan_start_prefixes {m : Mode} (p : Prefixes) {c : Byte} {t : List Byte} (hc : notPrefix m c) :
    scanPrefixes m Scan.start (p.bytes ++ c :: t) = .done (Scan.of p) (c :: t) := by
  rw [scan_prefixes p rfl rfl hc]
  simp [Scan.start, Scan.of]

/-! ### Fields of P1, P2, ModRM, SIB -/

theorem p1_R (r x b : BitVec 1) (mm : BitVec 5) :
    (~~~r ++ ~~~x ++ ~~~b ++ mm : Byte).extractLsb' 7 1 = ~~~r := by
  revert r x b mm; decide

theorem p1_X (r x b : BitVec 1) (mm : BitVec 5) :
    (~~~r ++ ~~~x ++ ~~~b ++ mm : Byte).extractLsb' 6 1 = ~~~x := by
  revert r x b mm; decide

theorem p1_B (r x b : BitVec 1) (mm : BitVec 5) :
    (~~~r ++ ~~~x ++ ~~~b ++ mm : Byte).extractLsb' 5 1 = ~~~b := by
  revert r x b mm; decide

theorem p1_RX (r x b : BitVec 1) (mm : BitVec 5) :
    (~~~r ++ ~~~x ++ ~~~b ++ mm : Byte).extractLsb' 6 2 = ~~~r ++ ~~~x := by
  revert r x b mm; decide

theorem p1_map (r x b : BitVec 1) (mm : BitVec 5) :
    (~~~r ++ ~~~x ++ ~~~b ++ mm : Byte).extractLsb' 0 5 = mm := by
  revert r x b mm; decide

theorem p2_W (w l : BitVec 1) (v : BitVec 4) (pp : BitVec 2) :
    (w ++ v ++ l ++ pp : Byte).extractLsb' 7 1 = w := by
  revert w l v pp; decide

theorem p2_v (w l : BitVec 1) (v : BitVec 4) (pp : BitVec 2) :
    (w ++ v ++ l ++ pp : Byte).extractLsb' 3 4 = v := by
  revert w l v pp; decide

theorem p2_vHigh (w l : BitVec 1) (v : BitVec 4) (pp : BitVec 2) :
    (w ++ v ++ l ++ pp : Byte).extractLsb' 6 1 = v.extractLsb' 3 1 := by
  revert w l v pp; decide

theorem p2_L (w l : BitVec 1) (v : BitVec 4) (pp : BitVec 2) :
    (w ++ v ++ l ++ pp : Byte).extractLsb' 2 1 = l := by
  revert w l v pp; decide

theorem p2_pp (w l : BitVec 1) (v : BitVec 4) (pp : BitVec 2) :
    (w ++ v ++ l ++ pp : Byte).extractLsb' 0 2 = pp := by
  revert w l v pp; decide

/-- The three fields of ModRM, and of SIB, read back. -/
theorem top_of_2_3_3 (a : BitVec 2) (b c : BitVec 3) : (a ++ b ++ c : Byte).extractLsb' 6 2 = a := by
  revert a b c; decide

theorem mid_of_2_3_3 (a : BitVec 2) (b c : BitVec 3) : (a ++ b ++ c : Byte).extractLsb' 3 3 = b := by
  revert a b c; decide

theorem low_of_2_3_3 (a : BitVec 2) (b c : BitVec 3) : (a ++ b ++ c : Byte).extractLsb' 0 3 = c := by
  revert a b c; decide

theorem hi_low (r : RegNum) : (r.hi ++ r.low : BitVec 4) = r := by
  revert r; decide

theorem not_not1 (b : BitVec 1) : ~~~(~~~b) = b := by revert b; decide

/-! ### Displacement, SIB, the operand -/

theorem takeDisp32_bytes (d : BitVec 32) (t : List Byte) : takeDisp32 (disp32Bytes d ++ t) = some (d, t) := by
  simp only [disp32Bytes, List.cons_append, List.nil_append, takeDisp32, Option.some.injEq, Prod.mk.injEq, and_true]
  apply BitVec.eq_of_getElem_eq
  intro j hj
  simp only [BitVec.getElem_append]
  split
  · simp only [BitVec.getElem_extractLsb']
    rw [← BitVec.getLsbD_eq_getElem]
    congr 1
    omega
  · split
    · simp only [BitVec.getElem_extractLsb']
      rw [← BitVec.getLsbD_eq_getElem]
      congr 1
      omega
    · split
      · simp only [BitVec.getElem_extractLsb']
        rw [← BitVec.getLsbD_eq_getElem]
        congr 1
        omega
      · simp only [BitVec.getElem_extractLsb']
        rw [← BitVec.getLsbD_eq_getElem]
        congr 1
        omega

theorem takeDisp_bytes (d : Disp) (t : List Byte) : takeDisp d.mod (d.bytes ++ t) = some (d, t) := by
  cases d with
  | none => rfl
  | d8 d => rfl
  | d32 d => simp [takeDisp, Disp.mod, Disp.bytes, takeDisp32_bytes]

theorem Disp.mod_ne_3 (d : Disp) : d.mod ≠ 3#2 := by cases d <;> simp [Disp.mod]

theorem indexOf_none (base : BitVec 3) : indexOf 0#1 (Index.sibByte none base) = none := by
  revert base; decide

theorem indexOf_some (i : Index) (base : BitVec 3) (h : i.reg ≠ 4#4) :
    indexOf i.reg.hi (Index.sibByte (some i) base) = some i := by
  have hreg : (i.reg.hi ++ (Index.sibByte (some i) base).extractLsb' 3 3 : RegNum) = i.reg := by
    rw [Index.sibByte, mid_of_2_3_3, hi_low]
  have hsc : (Index.sibByte (some i) base).extractLsb' 6 2 = i.scale := by
    rw [Index.sibByte, top_of_2_3_3]
  simp only [indexOf, hreg, hsc, if_neg h]

theorem indexOf_sibByte {m : Mode} (i : Option Index) (base : BitVec 3) (h : Index.optionFits m i = true) :
    indexOf (Index.x i) (Index.sibByte i base) = i := by
  cases i with
  | none => exact indexOf_none base
  | some i =>
    refine indexOf_some i base ?_
    simp only [Index.optionFits, Index.fits, Bool.and_eq_true, decide_eq_true_eq] at h
    exact h.1

theorem sibByte_base (i : Option Index) (base : BitVec 3) : (Index.sibByte i base).extractLsb' 0 3 = base := by
  cases i with
  | none => rw [Index.sibByte, low_of_2_3_3]
  | some i => rw [Index.sibByte, low_of_2_3_3]

/-- The decoder reads back the `r/m` operand from its fields (R68, R69). -/
theorem takeRm_fields {m : Mode} (rm : Rm) (reg : BitVec 3) (t : List Byte) (h : rm.fits m = true) :
    takeRm m rm.fields.x rm.fields.b (rm.fields.md ++ reg ++ rm.fields.rm) (rm.fields.tail ++ t) = some (rm, t) := by
  rw [takeRm, top_of_2_3_3, low_of_2_3_3]
  cases rm with
  | reg r => simp [Rm.fields, hi_low]
  | mem f =>
    cases f with
    | base r d =>
      simp only [Rm.fits, MemForm.fits, Bool.and_eq_true, Bool.not_eq_true', RegNum.lowIs, decide_eq_false_iff_not,
        Bool.and_eq_false_iff] at h
      obtain ⟨⟨_, h4⟩, h5⟩ := h
      have h5' : ¬(d.mod = 0#2 ∧ r.low = 5#3) := by
        rcases h5 with h5 | h5
        · cases d <;> simp_all [Disp.mod]
        · exact fun hh => h5 hh.2
      have h4' : r.low ≠ 4#3 := h4
      simp only [Rm.fields, d.mod_ne_3, h4', if_false, takeDisp_bytes, hi_low, Option.map_some]
      rw [if_neg fun hh => h5' ((Bool.and_eq_true _ _ ▸ hh).imp of_decide_eq_true of_decide_eq_true)]
    | sib r i d =>
      simp only [Rm.fits, MemForm.fits, Bool.and_eq_true, Bool.not_eq_true', RegNum.lowIs, decide_eq_false_iff_not,
        Bool.and_eq_false_iff] at h
      obtain ⟨⟨_, hi⟩, h5⟩ := h
      have h5' : ¬(r.low = 5#3 ∧ d.mod = 0#2) := by
        rcases h5 with h5 | h5
        · cases d <;> simp_all [Disp.mod]
        · exact fun hh => h5 hh.1
      simp only [Rm.fields, d.mod_ne_3, if_false, if_true, List.cons_append, takeSib, sibByte_base,
        takeDisp_bytes, Option.map_some, hi_low, indexOf_sibByte i _ hi]
      rw [if_neg fun hh => h5' ((Bool.and_eq_true _ _ ▸ hh).imp of_decide_eq_true of_decide_eq_true)]
    | sibNoBase i d =>
      simp only [Rm.fits, MemForm.fits] at h
      simp [Rm.fields, takeSib, sibByte_base, takeDisp32_bytes, indexOf_sibByte i _ h]
    | ripRel d =>
      simp only [Rm.fits, MemForm.fits, decide_eq_true_eq] at h
      simp [Rm.fields, takeDisp32_bytes, h]
    | abs32 d =>
      simp only [Rm.fits, MemForm.fits, decide_eq_true_eq] at h
      simp [Rm.fields, takeDisp32_bytes, h]

/-! ### Lengths (R74) -/

theorem Prefixes.bytes_length (p : Prefixes) : p.bytes.length = p.len := by
  obtain ⟨s, a⟩ := p
  cases s <;> cases a <;> rfl

theorem Rm.tail_length (rm : Rm) : rm.fields.tail.length = rm.extraLen := by
  cases rm with
  | reg r => rfl
  | mem f =>
    cases f with
    | base r d => cases d <;> rfl
    | sib r i d => cases d <;> simp [Rm.fields, Rm.extraLen, Disp.bytes, Disp.len, disp32Bytes]
    | sibNoBase i d => rfl
    | ripRel d => rfl
    | abs32 d => rfl

theorem Prefixes.len_le (p : Prefixes) : p.len ≤ 2 := by
  unfold Prefixes.len
  split <;> split <;> omega

theorem Rm.extraLen_le (rm : Rm) : rm.extraLen ≤ 5 := by
  cases rm with
  | reg r => simp [Rm.extraLen]
  | mem f =>
    cases f with
    | base r d => cases d <;> simp [Rm.extraLen, Disp.len]
    | sib r _ d => cases d <;> simp [Rm.extraLen, Disp.len]
    | _ => simp [Rm.extraLen]

theorem Instr.ilen_bounds (i : Instr) : 5 ≤ i.ilen ∧ i.ilen ≤ 13 := by
  have hp := i.prefixes.len_le
  have hr := i.rm.extraLen_le
  have hi : i.immLen ≤ 1 := by
    unfold Instr.immLen
    split <;> omega
  unfold Instr.ilen
  omega

/-! ### Register numbers outside `Mode64` (R61) -/

theorem Instr.fits_parts {i : Instr} {m : Mode} (h : i.fits m = true) : i.dst.fits m = true ∧ i.rm.fits m = true := by
  simp only [Instr.fits, Bool.and_eq_true] at h
  exact h.1

theorem RegNum.fits_hi {m : Mode} {r : RegNum} (hm : m ≠ .mode64) (h : r.fits m = true) : r.hi = 0#1 := by
  simp [RegNum.fits, hm] at h
  revert r
  unfold RegNum.hi
  decide

theorem Index.x_of_fits {m : Mode} {o : Option Index} (hm : m ≠ .mode64) (h : Index.optionFits m o = true) :
    Index.x o = 0#1 := by
  cases o with
  | none => rfl
  | some i =>
    simp only [Index.optionFits, Index.fits, Bool.and_eq_true] at h
    exact RegNum.fits_hi hm h.2

theorem Rm.xb_of_fits {m : Mode} {rm : Rm} (hm : m ≠ .mode64) (h : rm.fits m = true) :
    rm.fields.x = 0#1 ∧ rm.fields.b = 0#1 := by
  cases rm with
  | reg r => exact ⟨rfl, RegNum.fits_hi hm h⟩
  | mem f =>
    cases f with
    | base r d =>
      simp only [Rm.fits, MemForm.fits, Bool.and_eq_true] at h
      exact ⟨rfl, RegNum.fits_hi hm h.1.1⟩
    | sib r i d =>
      simp only [Rm.fits, MemForm.fits, Bool.and_eq_true] at h
      exact ⟨Index.x_of_fits hm h.1.2, RegNum.fits_hi hm h.1.1⟩
    | sibNoBase i d => exact ⟨Index.x_of_fits hm h, rfl⟩
    | ripRel d => exact ⟨rfl, rfl⟩
    | abs32 d => exact ⟨rfl, rfl⟩

theorem Instr.rx_of_fits {m : Mode} {i : Instr} (h : i.fits m = true) :
    m ≠ .mode64 → i.dst.hi = 0#1 ∧ i.rm.fields.x = 0#1 :=
  fun hm => ⟨RegNum.fits_hi hm (Instr.fits_parts h).1, (Rm.xb_of_fits hm (Instr.fits_parts h).2).1⟩

theorem Instr.storedV_high {m : Mode} {i : Instr} (h : i.fits m = true) : m ≠ .mode64 → i.storedV.getLsbD 3 = true := by
  intro hm
  unfold Instr.storedV
  simp only [Instr.fits, Bool.and_eq_true] at h
  cases hv : i.vvvv with
  | none => rfl
  | some v =>
    rw [hv] at h
    have h8 := h.2
    simp [RegNum.fits, hm] at h8
    have key : ∀ v : BitVec 4, v.toNat < 8 → (~~~v).getLsbD 3 = true := by decide
    exact key v h8

/-- The check of R79 step 5c passes on the encoding of an instruction that fits the mode. -/
theorem Instr.high_bits_ok {m : Mode} {i : Instr} {w l : BitVec 1} {v : BitVec 4} (h : i.fits m = true)
    (hv : m ≠ .mode64 → v.getLsbD 3 = true) :
    (decide (m ≠ .mode64) &&
      (decide ((~~~i.dst.hi ++ ~~~i.rm.fields.x ++ ~~~i.rm.fields.b ++ i.mapField : Byte).extractLsb' 5 1 = 0#1) ||
        decide ((w ++ v ++ l ++ 1#2 : Byte).extractLsb' 6 1 = 0#1))) = false := by
  by_cases hq : m = .mode64
  · simp [hq]
  · rw [p1_B, p2_vHigh, (Rm.xb_of_fits hq (Instr.fits_parts h).2).2]
    have key : ∀ v : BitVec 4, v.getLsbD 3 = true → v.extractLsb' 3 1 = 1#1 := by decide
    rw [key v (hv hq)]
    simp

/-! ### The body of an encoding read back (R57 to R70) -/

/-- The operand row of an instruction (R62). -/
def Instr.row (i : Instr) : Row := if i.imm8.isSome then .rmi else .rvm

theorem Instr.rowOf_encoding (i : Instr) (r x b : BitVec 1) :
    rowOf (~~~r ++ ~~~x ++ ~~~b ++ i.mapField : Byte) i.opcode = some i.row := by
  rw [rowOf, p1_map]
  cases i <;> rfl

theorem Instr.takeImm_encoding (i : Instr) (rest : List Byte) :
    takeImm i.row (i.imm8.toList ++ rest) = some (i.imm8.getD 0) := by
  cases i <;> rfl

theorem Instr.widthOf_encoding (i : Instr) (w : BitVec 1) (v : BitVec 4) :
    widthOf (w ++ v ++ i.width.l ++ 1#2) = i.width := by
  rw [widthOf, p2_L]
  cases i <;> rfl

theorem Instr.build_encoding (i : Instr) :
    buildInstr i.row i.width i.prefixes i.dst (~~~i.storedV) i.rm (i.imm8.getD 0) = i := by
  cases i with
  | var128 p d v m =>
    simp [Instr.row, Instr.imm8, Instr.width, Instr.storedV, Instr.vvvv, Instr.dst, Instr.prefixes, Instr.rm, buildInstr]
  | var256 p d v m =>
    simp [Instr.row, Instr.imm8, Instr.width, Instr.storedV, Instr.vvvv, Instr.dst, Instr.prefixes, Instr.rm, buildInstr]
  | imm128 p d m b => rfl
  | imm256 p d m b => rfl

/-- The bytes after `C4H` of an encoding whose `W` bit and stored `vvvv` are given. -/
def Instr.body (w : BitVec 1) (v : BitVec 4) (i : Instr) (rest : List Byte) : List Byte :=
  (~~~i.dst.hi ++ ~~~i.rm.fields.x ++ ~~~i.rm.fields.b ++ i.mapField : Byte)
    :: (w ++ v ++ i.width.l ++ 1#2 : Byte) :: i.opcode :: (i.rm.fields.md ++ i.dst.low ++ i.rm.fields.rm : Byte)
    :: (i.rm.fields.tail ++ (i.imm8.toList ++ rest))

theorem Instr.encodeWith_append (i : Instr) (w : BitVec 1) (v : BitVec 4) (rest : List Byte) :
    i.encodeWith w v ++ rest = i.prefixes.bytes ++ 0xC4#8 :: i.body w v rest := by
  simp [Instr.encodeWith, Instr.body]

theorem encode_drop_prefixes (i : Instr) (rest : List Byte) :
    (encode i).drop i.prefixes.len ++ rest = 0xC4#8 :: i.body 0#1 i.storedV rest := by
  rw [encode, Instr.encodeWith]
  simp only [List.append_assoc]
  rw [← Prefixes.bytes_length, List.drop_left']
  · simp [Instr.body]
  · rfl

/-- What R79 steps 3 to 5 make of the body of an encoding, after any prefixes: the judgement on the fields encoded. -/
theorem decodeVex_body {m : Mode} (a : Scan) {i : Instr} (w : BitVec 1) (v : BitVec 4) (rest : List Byte)
    (hrm : i.rm.fits m = true) (hm : m ≠ .mode16) (h1 : m ≠ .mode64 → i.dst.hi = 0#1 ∧ i.rm.fields.x = 0#1) :
    decodeVex m a (i.body w v rest)
      = judge m a (~~~i.dst.hi ++ ~~~i.rm.fields.x ++ ~~~i.rm.fields.b ++ i.mapField : Byte)
          (w ++ v ++ i.width.l ++ 1#2 : Byte) i.row (a.count + 3 + 1 + 1 + i.rm.extraLen + i.immLen)
          (buildInstr i.row i.width ⟨a.seg, a.addr67⟩ i.dst (~~~v) i.rm (i.imm8.getD 0)) := by
  have hc : (decide (m ≠ .mode64) && decide (~~~i.dst.hi ++ ~~~i.rm.fields.x ≠ 3#2)) = false := by
    by_cases hq : m = .mode64
    · simp [hq]
    · obtain ⟨e1, e2⟩ := h1 hq
      rw [e1, e2]
      simp
  rw [Instr.body, decodeVex, p1_RX, if_neg (by simpa using hc), i.rowOf_encoding]
  simp only [p2_pp, ne_eq, not_true, if_false, hm]
  rw [decodeOperands, p1_X, p1_B, not_not1, not_not1, takeRm_fields _ _ _ hrm]
  simp only [i.takeImm_encoding, p1_R, mid_of_2_3_3, p2_v, not_not1, hi_low, i.widthOf_encoding]
  congr 2
  cases i <;> rfl

/-- The judgement that decoding an encoding reaches (R79). -/
theorem decode_encodeWith {m : Mode} {i : Instr} (w : BitVec 1) (v : BitVec 4) (rest : List Byte)
    (hrm : i.rm.fits m = true) (hm : m ≠ .mode16) (h1 : m ≠ .mode64 → i.dst.hi = 0#1 ∧ i.rm.fields.x = 0#1) :
    decode m (i.encodeWith w v ++ rest)
      = judge m (Scan.of i.prefixes) (~~~i.dst.hi ++ ~~~i.rm.fields.x ++ ~~~i.rm.fields.b ++ i.mapField : Byte)
          (w ++ v ++ i.width.l ++ 1#2 : Byte) i.row i.ilen
          (buildInstr i.row i.width i.prefixes i.dst (~~~v) i.rm (i.imm8.getD 0)) := by
  rw [Instr.encodeWith_append, decode, scan_start_prefixes _ (notPrefix_C4 m)]
  simp only [if_true]
  rw [decodeVex_body _ w v rest hrm hm h1]
  rfl

end Sys2Proof
end

