-- ==== Sys2Proof/Laws/State.lean ====
section
/-! SUPPORT. What each state update leaves in each field: one lemma per field per update, true by unfolding once. -/

namespace Sys2Proof.Machine

/-! ### `State.writeV` -/

@[simp] theorem State.writeV_v (s : State) (n : RegNum) (val : Vec) : (s.writeV n val).v = s.v.set n.toFin val := rfl
@[simp] theorem State.writeV_x (s : State) (n : RegNum) (val : Vec) : (s.writeV n val).x = s.x := rfl
@[simp] theorem State.writeV_rip (s : State) (n : RegNum) (val : Vec) : (s.writeV n val).rip = s.rip := rfl
@[simp] theorem State.writeV_rflags (s : State) (n : RegNum) (val : Vec) : (s.writeV n val).rflags = s.rflags := rfl
@[simp] theorem State.writeV_mxcsr (s : State) (n : RegNum) (val : Vec) : (s.writeV n val).mxcsr = s.mxcsr := rfl
@[simp] theorem State.writeV_cr0 (s : State) (n : RegNum) (val : Vec) : (s.writeV n val).cr0 = s.cr0 := rfl
@[simp] theorem State.writeV_cr2 (s : State) (n : RegNum) (val : Vec) : (s.writeV n val).cr2 = s.cr2 := rfl
@[simp] theorem State.writeV_cr3 (s : State) (n : RegNum) (val : Vec) : (s.writeV n val).cr3 = s.cr3 := rfl
@[simp] theorem State.writeV_cr4 (s : State) (n : RegNum) (val : Vec) : (s.writeV n val).cr4 = s.cr4 := rfl
@[simp] theorem State.writeV_xcr0 (s : State) (n : RegNum) (val : Vec) : (s.writeV n val).xcr0 = s.xcr0 := rfl
@[simp] theorem State.writeV_efer (s : State) (n : RegNum) (val : Vec) : (s.writeV n val).efer = s.efer := rfl
@[simp] theorem State.writeV_csL (s : State) (n : RegNum) (val : Vec) : (s.writeV n val).csL = s.csL := rfl
@[simp] theorem State.writeV_csD (s : State) (n : RegNum) (val : Vec) : (s.writeV n val).csD = s.csD := rfl
@[simp] theorem State.writeV_cpl (s : State) (n : RegNum) (val : Vec) : (s.writeV n val).cpl = s.cpl := rfl
@[simp] theorem State.writeV_es (s : State) (n : RegNum) (val : Vec) : (s.writeV n val).es = s.es := rfl
@[simp] theorem State.writeV_cs (s : State) (n : RegNum) (val : Vec) : (s.writeV n val).cs = s.cs := rfl
@[simp] theorem State.writeV_ss (s : State) (n : RegNum) (val : Vec) : (s.writeV n val).ss = s.ss := rfl
@[simp] theorem State.writeV_ds (s : State) (n : RegNum) (val : Vec) : (s.writeV n val).ds = s.ds := rfl
@[simp] theorem State.writeV_fs (s : State) (n : RegNum) (val : Vec) : (s.writeV n val).fs = s.fs := rfl
@[simp] theorem State.writeV_gs (s : State) (n : RegNum) (val : Vec) : (s.writeV n val).gs = s.gs := rfl
@[simp] theorem State.writeV_paging (s : State) (n : RegNum) (val : Vec) : (s.writeV n val).paging = s.paging := rfl
@[simp] theorem State.writeV_mem (s : State) (n : RegNum) (val : Vec) : (s.writeV n val).mem = s.mem := rfl
@[simp] theorem State.writeV_special (s : State) (n : RegNum) (val : Vec) : (s.writeV n val).special = s.special := rfl
@[simp] theorem State.writeV_breakpointArmed (s : State) (n : RegNum) (val : Vec) : (s.writeV n val).breakpointArmed = s.breakpointArmed := rfl
@[simp] theorem State.writeV_params (s : State) (n : RegNum) (val : Vec) : (s.writeV n val).params = s.params := rfl
@[simp] theorem State.writeV_textBase (s : State) (n : RegNum) (val : Vec) : (s.writeV n val).textBase = s.textBase := rfl
@[simp] theorem State.writeV_textEnd (s : State) (n : RegNum) (val : Vec) : (s.writeV n val).textEnd = s.textEnd := rfl
@[simp] theorem State.writeV_env (s : State) (n : RegNum) (val : Vec) : (s.writeV n val).env = s.env := rfl
@[simp] theorem State.writeV_tick (s : State) (n : RegNum) (val : Vec) : (s.writeV n val).tick = s.tick := rfl

@[simp] theorem State.writeV_get_pe (s : State) (n : RegNum) (val : Vec) : (s.writeV n val).pe = s.pe := rfl
@[simp] theorem State.writeV_get_em (s : State) (n : RegNum) (val : Vec) : (s.writeV n val).em = s.em := rfl
@[simp] theorem State.writeV_get_ts (s : State) (n : RegNum) (val : Vec) : (s.writeV n val).ts = s.ts := rfl
@[simp] theorem State.writeV_get_am (s : State) (n : RegNum) (val : Vec) : (s.writeV n val).am = s.am := rfl
@[simp] theorem State.writeV_get_pg (s : State) (n : RegNum) (val : Vec) : (s.writeV n val).pg = s.pg := rfl
@[simp] theorem State.writeV_get_osxsave (s : State) (n : RegNum) (val : Vec) : (s.writeV n val).osxsave = s.osxsave := rfl
@[simp] theorem State.writeV_get_xcr0Avx (s : State) (n : RegNum) (val : Vec) : (s.writeV n val).xcr0Avx = s.xcr0Avx := rfl
@[simp] theorem State.writeV_get_lma (s : State) (n : RegNum) (val : Vec) : (s.writeV n val).lma = s.lma := rfl
@[simp] theorem State.writeV_get_vm (s : State) (n : RegNum) (val : Vec) : (s.writeV n val).vm = s.vm := rfl
@[simp] theorem State.writeV_get_ac (s : State) (n : RegNum) (val : Vec) : (s.writeV n val).ac = s.ac := rfl
@[simp] theorem State.writeV_get_tf (s : State) (n : RegNum) (val : Vec) : (s.writeV n val).tf = s.tf := rfl
@[simp] theorem State.writeV_get_mode (s : State) (n : RegNum) (val : Vec) : (s.writeV n val).mode = s.mode := rfl
@[simp] theorem State.writeV_get_alignEnabled (s : State) (n : RegNum) (val : Vec) : (s.writeV n val).alignEnabled = s.alignEnabled := rfl

/-! ### `State.setRip` -/

@[simp] theorem State.setRip_v (s : State) (t : Addr) : (s.setRip t).v = s.v := rfl
@[simp] theorem State.setRip_x (s : State) (t : Addr) : (s.setRip t).x = s.x := rfl
@[simp] theorem State.setRip_rip (s : State) (t : Addr) : (s.setRip t).rip = t := rfl
@[simp] theorem State.setRip_rflags (s : State) (t : Addr) : (s.setRip t).rflags = s.rflags := rfl
@[simp] theorem State.setRip_mxcsr (s : State) (t : Addr) : (s.setRip t).mxcsr = s.mxcsr := rfl
@[simp] theorem State.setRip_cr0 (s : State) (t : Addr) : (s.setRip t).cr0 = s.cr0 := rfl
@[simp] theorem State.setRip_cr2 (s : State) (t : Addr) : (s.setRip t).cr2 = s.cr2 := rfl
@[simp] theorem State.setRip_cr3 (s : State) (t : Addr) : (s.setRip t).cr3 = s.cr3 := rfl
@[simp] theorem State.setRip_cr4 (s : State) (t : Addr) : (s.setRip t).cr4 = s.cr4 := rfl
@[simp] theorem State.setRip_xcr0 (s : State) (t : Addr) : (s.setRip t).xcr0 = s.xcr0 := rfl
@[simp] theorem State.setRip_efer (s : State) (t : Addr) : (s.setRip t).efer = s.efer := rfl
@[simp] theorem State.setRip_csL (s : State) (t : Addr) : (s.setRip t).csL = s.csL := rfl
@[simp] theorem State.setRip_csD (s : State) (t : Addr) : (s.setRip t).csD = s.csD := rfl
@[simp] theorem State.setRip_cpl (s : State) (t : Addr) : (s.setRip t).cpl = s.cpl := rfl
@[simp] theorem State.setRip_es (s : State) (t : Addr) : (s.setRip t).es = s.es := rfl
@[simp] theorem State.setRip_cs (s : State) (t : Addr) : (s.setRip t).cs = s.cs := rfl
@[simp] theorem State.setRip_ss (s : State) (t : Addr) : (s.setRip t).ss = s.ss := rfl
@[simp] theorem State.setRip_ds (s : State) (t : Addr) : (s.setRip t).ds = s.ds := rfl
@[simp] theorem State.setRip_fs (s : State) (t : Addr) : (s.setRip t).fs = s.fs := rfl
@[simp] theorem State.setRip_gs (s : State) (t : Addr) : (s.setRip t).gs = s.gs := rfl
@[simp] theorem State.setRip_paging (s : State) (t : Addr) : (s.setRip t).paging = s.paging := rfl
@[simp] theorem State.setRip_mem (s : State) (t : Addr) : (s.setRip t).mem = s.mem := rfl
@[simp] theorem State.setRip_special (s : State) (t : Addr) : (s.setRip t).special = s.special := rfl
@[simp] theorem State.setRip_breakpointArmed (s : State) (t : Addr) : (s.setRip t).breakpointArmed = s.breakpointArmed := rfl
@[simp] theorem State.setRip_params (s : State) (t : Addr) : (s.setRip t).params = s.params := rfl
@[simp] theorem State.setRip_textBase (s : State) (t : Addr) : (s.setRip t).textBase = s.textBase := rfl
@[simp] theorem State.setRip_textEnd (s : State) (t : Addr) : (s.setRip t).textEnd = s.textEnd := rfl
@[simp] theorem State.setRip_env (s : State) (t : Addr) : (s.setRip t).env = s.env := rfl
@[simp] theorem State.setRip_tick (s : State) (t : Addr) : (s.setRip t).tick = s.tick := rfl

@[simp] theorem State.setRip_get_pe (s : State) (t : Addr) : (s.setRip t).pe = s.pe := rfl
@[simp] theorem State.setRip_get_em (s : State) (t : Addr) : (s.setRip t).em = s.em := rfl
@[simp] theorem State.setRip_get_ts (s : State) (t : Addr) : (s.setRip t).ts = s.ts := rfl
@[simp] theorem State.setRip_get_am (s : State) (t : Addr) : (s.setRip t).am = s.am := rfl
@[simp] theorem State.setRip_get_pg (s : State) (t : Addr) : (s.setRip t).pg = s.pg := rfl
@[simp] theorem State.setRip_get_osxsave (s : State) (t : Addr) : (s.setRip t).osxsave = s.osxsave := rfl
@[simp] theorem State.setRip_get_xcr0Avx (s : State) (t : Addr) : (s.setRip t).xcr0Avx = s.xcr0Avx := rfl
@[simp] theorem State.setRip_get_lma (s : State) (t : Addr) : (s.setRip t).lma = s.lma := rfl
@[simp] theorem State.setRip_get_vm (s : State) (t : Addr) : (s.setRip t).vm = s.vm := rfl
@[simp] theorem State.setRip_get_ac (s : State) (t : Addr) : (s.setRip t).ac = s.ac := rfl
@[simp] theorem State.setRip_get_tf (s : State) (t : Addr) : (s.setRip t).tf = s.tf := rfl
@[simp] theorem State.setRip_get_mode (s : State) (t : Addr) : (s.setRip t).mode = s.mode := rfl
@[simp] theorem State.setRip_get_alignEnabled (s : State) (t : Addr) : (s.setRip t).alignEnabled = s.alignEnabled := rfl

/-! ### `State.complete` -/

@[simp] theorem State.complete_v (s : State) (i : Instr) (r : Vec) : (s.complete i r).v = s.v.set i.dst.toFin r := rfl
@[simp] theorem State.complete_x (s : State) (i : Instr) (r : Vec) : (s.complete i r).x = s.x := rfl
@[simp] theorem State.complete_rip (s : State) (i : Instr) (r : Vec) : (s.complete i r).rip = s.nextIp i.ilen := rfl
@[simp] theorem State.complete_rflags (s : State) (i : Instr) (r : Vec) : (s.complete i r).rflags = s.rflags := rfl
@[simp] theorem State.complete_mxcsr (s : State) (i : Instr) (r : Vec) : (s.complete i r).mxcsr = s.mxcsr := rfl
@[simp] theorem State.complete_cr0 (s : State) (i : Instr) (r : Vec) : (s.complete i r).cr0 = s.cr0 := rfl
@[simp] theorem State.complete_cr2 (s : State) (i : Instr) (r : Vec) : (s.complete i r).cr2 = s.cr2 := rfl
@[simp] theorem State.complete_cr3 (s : State) (i : Instr) (r : Vec) : (s.complete i r).cr3 = s.cr3 := rfl
@[simp] theorem State.complete_cr4 (s : State) (i : Instr) (r : Vec) : (s.complete i r).cr4 = s.cr4 := rfl
@[simp] theorem State.complete_xcr0 (s : State) (i : Instr) (r : Vec) : (s.complete i r).xcr0 = s.xcr0 := rfl
@[simp] theorem State.complete_efer (s : State) (i : Instr) (r : Vec) : (s.complete i r).efer = s.efer := rfl
@[simp] theorem State.complete_csL (s : State) (i : Instr) (r : Vec) : (s.complete i r).csL = s.csL := rfl
@[simp] theorem State.complete_csD (s : State) (i : Instr) (r : Vec) : (s.complete i r).csD = s.csD := rfl
@[simp] theorem State.complete_cpl (s : State) (i : Instr) (r : Vec) : (s.complete i r).cpl = s.cpl := rfl
@[simp] theorem State.complete_es (s : State) (i : Instr) (r : Vec) : (s.complete i r).es = s.es := rfl
@[simp] theorem State.complete_cs (s : State) (i : Instr) (r : Vec) : (s.complete i r).cs = s.cs := rfl
@[simp] theorem State.complete_ss (s : State) (i : Instr) (r : Vec) : (s.complete i r).ss = s.ss := rfl
@[simp] theorem State.complete_ds (s : State) (i : Instr) (r : Vec) : (s.complete i r).ds = s.ds := rfl
@[simp] theorem State.complete_fs (s : State) (i : Instr) (r : Vec) : (s.complete i r).fs = s.fs := rfl
@[simp] theorem State.complete_gs (s : State) (i : Instr) (r : Vec) : (s.complete i r).gs = s.gs := rfl
@[simp] theorem State.complete_paging (s : State) (i : Instr) (r : Vec) : (s.complete i r).paging = s.paging := rfl
@[simp] theorem State.complete_mem (s : State) (i : Instr) (r : Vec) : (s.complete i r).mem = s.mem := rfl
@[simp] theorem State.complete_special (s : State) (i : Instr) (r : Vec) : (s.complete i r).special = s.special := rfl
@[simp] theorem State.complete_breakpointArmed (s : State) (i : Instr) (r : Vec) : (s.complete i r).breakpointArmed = s.breakpointArmed := rfl
@[simp] theorem State.complete_params (s : State) (i : Instr) (r : Vec) : (s.complete i r).params = s.params := rfl
@[simp] theorem State.complete_textBase (s : State) (i : Instr) (r : Vec) : (s.complete i r).textBase = s.textBase := rfl
@[simp] theorem State.complete_textEnd (s : State) (i : Instr) (r : Vec) : (s.complete i r).textEnd = s.textEnd := rfl
@[simp] theorem State.complete_env (s : State) (i : Instr) (r : Vec) : (s.complete i r).env = s.env := rfl
@[simp] theorem State.complete_tick (s : State) (i : Instr) (r : Vec) : (s.complete i r).tick = s.tick := rfl

@[simp] theorem State.complete_get_pe (s : State) (i : Instr) (r : Vec) : (s.complete i r).pe = s.pe := rfl
@[simp] theorem State.complete_get_em (s : State) (i : Instr) (r : Vec) : (s.complete i r).em = s.em := rfl
@[simp] theorem State.complete_get_ts (s : State) (i : Instr) (r : Vec) : (s.complete i r).ts = s.ts := rfl
@[simp] theorem State.complete_get_am (s : State) (i : Instr) (r : Vec) : (s.complete i r).am = s.am := rfl
@[simp] theorem State.complete_get_pg (s : State) (i : Instr) (r : Vec) : (s.complete i r).pg = s.pg := rfl
@[simp] theorem State.complete_get_osxsave (s : State) (i : Instr) (r : Vec) : (s.complete i r).osxsave = s.osxsave := rfl
@[simp] theorem State.complete_get_xcr0Avx (s : State) (i : Instr) (r : Vec) : (s.complete i r).xcr0Avx = s.xcr0Avx := rfl
@[simp] theorem State.complete_get_lma (s : State) (i : Instr) (r : Vec) : (s.complete i r).lma = s.lma := rfl
@[simp] theorem State.complete_get_vm (s : State) (i : Instr) (r : Vec) : (s.complete i r).vm = s.vm := rfl
@[simp] theorem State.complete_get_ac (s : State) (i : Instr) (r : Vec) : (s.complete i r).ac = s.ac := rfl
@[simp] theorem State.complete_get_tf (s : State) (i : Instr) (r : Vec) : (s.complete i r).tf = s.tf := rfl
@[simp] theorem State.complete_get_mode (s : State) (i : Instr) (r : Vec) : (s.complete i r).mode = s.mode := rfl
@[simp] theorem State.complete_get_alignEnabled (s : State) (i : Instr) (r : Vec) : (s.complete i r).alignEnabled = s.alignEnabled := rfl

/-! ### `State.envAdvance` -/

@[simp] theorem State.envAdvance_v (s : State) : (s.envAdvance).v = s.v := rfl
@[simp] theorem State.envAdvance_x (s : State) : (s.envAdvance).x = s.x := rfl
@[simp] theorem State.envAdvance_rip (s : State) : (s.envAdvance).rip = s.rip := rfl
@[simp] theorem State.envAdvance_rflags (s : State) : (s.envAdvance).rflags = s.rflags := rfl
@[simp] theorem State.envAdvance_mxcsr (s : State) : (s.envAdvance).mxcsr = s.mxcsr := rfl
@[simp] theorem State.envAdvance_cr0 (s : State) : (s.envAdvance).cr0 = s.cr0 := rfl
@[simp] theorem State.envAdvance_cr2 (s : State) : (s.envAdvance).cr2 = s.cr2 := rfl
@[simp] theorem State.envAdvance_cr3 (s : State) : (s.envAdvance).cr3 = s.cr3 := rfl
@[simp] theorem State.envAdvance_cr4 (s : State) : (s.envAdvance).cr4 = s.cr4 := rfl
@[simp] theorem State.envAdvance_xcr0 (s : State) : (s.envAdvance).xcr0 = s.xcr0 := rfl
@[simp] theorem State.envAdvance_efer (s : State) : (s.envAdvance).efer = s.efer := rfl
@[simp] theorem State.envAdvance_csL (s : State) : (s.envAdvance).csL = s.csL := rfl
@[simp] theorem State.envAdvance_csD (s : State) : (s.envAdvance).csD = s.csD := rfl
@[simp] theorem State.envAdvance_cpl (s : State) : (s.envAdvance).cpl = s.cpl := rfl
@[simp] theorem State.envAdvance_es (s : State) : (s.envAdvance).es = s.es := rfl
@[simp] theorem State.envAdvance_cs (s : State) : (s.envAdvance).cs = s.cs := rfl
@[simp] theorem State.envAdvance_ss (s : State) : (s.envAdvance).ss = s.ss := rfl
@[simp] theorem State.envAdvance_ds (s : State) : (s.envAdvance).ds = s.ds := rfl
@[simp] theorem State.envAdvance_fs (s : State) : (s.envAdvance).fs = s.fs := rfl
@[simp] theorem State.envAdvance_gs (s : State) : (s.envAdvance).gs = s.gs := rfl
@[simp] theorem State.envAdvance_paging (s : State) : (s.envAdvance).paging = s.paging := rfl
@[simp] theorem State.envAdvance_mem (s : State) : (s.envAdvance).mem = s.mem.applyWrites s.batch := rfl
@[simp] theorem State.envAdvance_special (s : State) : (s.envAdvance).special = s.special := rfl
@[simp] theorem State.envAdvance_breakpointArmed (s : State) : (s.envAdvance).breakpointArmed = s.breakpointArmed := rfl
@[simp] theorem State.envAdvance_params (s : State) : (s.envAdvance).params = s.params := rfl
@[simp] theorem State.envAdvance_textBase (s : State) : (s.envAdvance).textBase = s.textBase := rfl
@[simp] theorem State.envAdvance_textEnd (s : State) : (s.envAdvance).textEnd = s.textEnd := rfl
@[simp] theorem State.envAdvance_env (s : State) : (s.envAdvance).env = s.env.tail := rfl
@[simp] theorem State.envAdvance_tick (s : State) : (s.envAdvance).tick = s.tick + 1 := rfl

@[simp] theorem State.envAdvance_get_pe (s : State) : (s.envAdvance).pe = s.pe := rfl
@[simp] theorem State.envAdvance_get_em (s : State) : (s.envAdvance).em = s.em := rfl
@[simp] theorem State.envAdvance_get_ts (s : State) : (s.envAdvance).ts = s.ts := rfl
@[simp] theorem State.envAdvance_get_am (s : State) : (s.envAdvance).am = s.am := rfl
@[simp] theorem State.envAdvance_get_pg (s : State) : (s.envAdvance).pg = s.pg := rfl
@[simp] theorem State.envAdvance_get_osxsave (s : State) : (s.envAdvance).osxsave = s.osxsave := rfl
@[simp] theorem State.envAdvance_get_xcr0Avx (s : State) : (s.envAdvance).xcr0Avx = s.xcr0Avx := rfl
@[simp] theorem State.envAdvance_get_lma (s : State) : (s.envAdvance).lma = s.lma := rfl
@[simp] theorem State.envAdvance_get_vm (s : State) : (s.envAdvance).vm = s.vm := rfl
@[simp] theorem State.envAdvance_get_ac (s : State) : (s.envAdvance).ac = s.ac := rfl
@[simp] theorem State.envAdvance_get_tf (s : State) : (s.envAdvance).tf = s.tf := rfl
@[simp] theorem State.envAdvance_get_mode (s : State) : (s.envAdvance).mode = s.mode := rfl
@[simp] theorem State.envAdvance_get_alignEnabled (s : State) : (s.envAdvance).alignEnabled = s.alignEnabled := rfl

/-! ### Registers -/

@[simp] theorem State.readV_writeV_same (s : State) (n : RegNum) (val : Vec) : (s.writeV n val).readV n = val := by
  simp [State.readV, State.writeV]

theorem State.readV_writeV_other (s : State) (n m : RegNum) (val : Vec) (h : m ≠ n) :
    (s.writeV n val).readV m = s.readV m := by
  have hne : n.toFin.val ≠ m.toFin.val := fun e => h (BitVec.eq_of_toNat_eq e.symm)
  simp only [State.readV, State.writeV, Fin.getElem_fin]
  exact Vector.getElem_set_ne _ _ hne

@[simp] theorem State.readV_setRip (s : State) (t : Addr) (n : RegNum) : (s.setRip t).readV n = s.readV n := rfl

@[simp] theorem State.readV_envAdvance (s : State) (n : RegNum) : s.envAdvance.readV n = s.readV n := rfl

theorem State.complete_eq_after (s : State) (i : Instr) (r : Vec) :
    s.complete i r = (s.writeV i.dst r).setRip (s.nextIp i.ilen) := rfl

/-- A register read after a register write (R8). -/
theorem State.readV_writeV (s : State) (n k : RegNum) (val : Vec) :
    (s.writeV n val).readV k = if k = n then val else s.readV k := by
  simp only [State.readV, State.writeV]
  by_cases h : k = n
  · subst h
    simp
  · have hne : n.toNat ≠ k.toNat := fun e => h (BitVec.eq_of_toNat_eq e.symm)
    simp [h, hne]

/-- The destination of a completed instruction holds its result (R86). -/
theorem State.complete_readV_dst (s : State) (i : Instr) (r : Vec) : (s.complete i r).readV i.dst = r := by
  rw [State.complete, State.setRip, State.readV]
  exact (State.readV_writeV s i.dst i.dst r).trans (if_pos rfl)

end Sys2Proof.Machine
end

