-- ==== Sys2Proof/Laws/Outcome.lean ====
section
/-! SUPPORT. Outcomes in sequence, and what a form's execution can answer: one inversion for each shared operation. -/

namespace Sys2Proof.Machine

@[simp] theorem Out.andThen_next {α β : Type} (a : α) (k : α → Out β) : Out.andThen (.next a) k = k a := rfl

@[simp] theorem Out.andThen_fault {α β : Type} (f : Fault) (k : α → Out β) : Out.andThen (.fault f) k = .fault f := rfl

@[simp] theorem Out.andThen_refused {α β : Type} (r : Refusal) (k : α → Out β) :
    Out.andThen (.refused r) k = .refused r := rfl

@[simp] theorem raise_eq {α : Type} (f : Fault) : (raise f : Out α) = .fault f := rfl

/-- A sequence that answers a value has a first part that does. -/
theorem Out.andThen_eq_next {α β : Type} {o : Out α} {k : α → Out β} {b : β} (h : o.andThen k = .next b) :
    ∃ a, o = .next a ∧ k a = .next b := by
  cases o with
  | next a => exact ⟨a, rfl, h⟩
  | fault f => simp at h
  | refused r => simp at h

/-- A form that completes passed the checks, read its operand, and made its two changes (R86). -/
theorem runForm_eq_next {i : Instr} {s t : State} {f : Vec → Vec} (h : runForm i s f = .next t) :
    s.gate i = .next () ∧ ∃ src, s.readRm i = .next src ∧ t = s.complete i (f src) := by
  obtain ⟨_, hg, h⟩ := Out.andThen_eq_next h
  obtain ⟨src, hr, h⟩ := Out.andThen_eq_next h
  exact ⟨hg, src, hr, by injection h with h; exact h.symm⟩

/-- A form whose checks pass and whose operand is read completes (R86). -/
theorem runForm_of_parts {i : Instr} {s : State} {f : Vec → Vec} {src : Vec}
    (hg : s.gate i = .next ()) (hr : s.readRm i = .next src) : runForm i s f = .next (s.complete i (f src)) := by
  simp [runForm, hg, hr]

/-- Every form is the common course with its own result. -/
theorem exec_eq_runForm (i : Instr) (s : State) : exec i s = runForm i s (resultOf i s) := by
  cases i <;> rfl

/-- An instruction that completes: the checks, the operand, the two changes. -/
theorem exec_eq_next {i : Instr} {s t : State} (h : exec i s = .next t) :
    s.gate i = .next () ∧ ∃ src, s.readRm i = .next src ∧ t = s.complete i (resultOf i s src) := by
  rw [exec_eq_runForm] at h
  exact runForm_eq_next h

/-- An instruction whose checks pass and whose operand is read completes. -/
theorem exec_of_parts {i : Instr} {s : State} {src : Vec} (hg : s.gate i = .next ()) (hr : s.readRm i = .next src) :
    exec i s = .next (s.complete i (resultOf i s src)) := by
  rw [exec_eq_runForm]
  exact runForm_of_parts hg hr

/-- A step that completes: the premises hold, the bytes decode, the instruction completes, the other agents' batch
lands. -/
theorem step_eq_next {s t : State} (h : step s = .next t) :
    premises s = .next () ∧
      ∃ i u, s.fetchDecode fetchFuel [] = .next (.form i) ∧ exec i s = .next u ∧ t = u.envAdvance := by
  obtain ⟨_, hp, h⟩ := Out.andThen_eq_next h
  obtain ⟨v, hv, h⟩ := Out.andThen_eq_next h
  refine ⟨hp, ?_⟩
  cases v with
  | form i =>
    obtain ⟨u, hu, h⟩ := Out.andThen_eq_next h
    exact ⟨i, u, hv, hu, by injection h with h; exact h.symm⟩
  | ud len => simp only [onVerdict] at h; split at h <;> simp at h
  | refuse r len => simp only [onVerdict] at h; split at h <;> simp at h
  | notVpermilps => simp [onVerdict] at h
  | short => simp [onVerdict] at h

/-- What the checks of R113 steps 1 to 5 found where they pass. -/
theorem State.gate_eq_next {s : State} {i : Instr} (h : s.gate i = .next ()) :
    s.ripWraps i.ilen = false ∧ s.mode ≠ .mode16 ∧ i.fits s.mode = true ∧ i.addr16 s.mode = false ∧
      enabled s = .next () := by
  rw [State.gate] at h
  split at h
  · simp at h
  · rename_i hr
    rw [State.refusal] at hr
    split at hr
    · simp at hr
    split at hr
    · simp at hr
    split at hr
    · simp at hr
    split at hr
    · simp at hr
    simp_all

end Sys2Proof.Machine
end

