-- ==== Sys2Proof/Laws/Execution.lean ====
section
/-! SUPPORT. When the checks of R113 pass, when the operand is read, and so when an instruction completes: the lemmas
that cite the launch premises instead of unfolding the checks. -/

namespace Sys2Proof.Machine

/-! ### The checks before the operand -/

theorem Admitted.refusal {i : Instr} {s : State} (h : Admitted i s) : s.refusal i = none := by
  obtain ⟨hm, hw, hip, ho⟩ := h
  have hf : i.fits s.mode = true ∧ s.mode ≠ .mode16 ∧ i.addr16 s.mode = false := by
    simp only [Instr.wf, Bool.and_eq_true, Bool.not_eq_true', decide_eq_true_eq] at hw
    exact ⟨hw.1.1, hw.1.2, hw.2⟩
  simp [State.refusal, hip, hf.1, hf.2.1, hf.2.2, ho]

theorem Admitted.gate {i : Instr} {s : State} (h : Admitted i s) : s.gate i = enabled s := by
  rw [State.gate, h.refusal]

theorem LMode.not_ud {s : State} (h : LMode s) : (s.mode = .modeReal || s.mode = .modeV86) = false := by
  rcases h with h | h <;> simp [h]

theorem Ready.gate {i : Instr} {s : State} (h : Ready i s) : s.gate i = .next () := by
  obtain ⟨ha, ⟨h1, h2, h3⟩, h4, h5⟩ := h
  rw [ha.gate, enabled]
  simp [ha.mode.not_ud, h1, h2, h3, h4, h5]

/-! ### The address and the operand -/

theorem AddressOk.check {i : Instr} {m : MemForm} {s : State} (h : AddressOk i m s) :
    s.checkAddress (s.seg i m) (s.ea i m) i.width.bytes = .next () := by
  rw [State.checkAddress]
  by_cases hm : s.mode = .mode64
  · have hw := h.wrap hm
    have hc := h.canonical hm
    simp only [State.lin] at hw hc
    rw [if_pos hm, if_neg (by omega), if_pos]
    simpa using hc
  · rw [if_neg hm, if_pos (h.segment hm)]

/-- The oracle answers for every byte: the physical addresses in order. -/
theorem State.physFrom_eq_ok {s : State} {lin : Addr} {phys : Nat → Addr} (n k : Nat)
    (h : ∀ j, k ≤ j → j < k + n → s.translate (s.byteLinear lin j) .read = .phys (phys j)) :
    s.physFrom lin n k = .ok ((List.range' k n).map phys) := by
  induction n generalizing k with
  | zero => rfl
  | succ n ih =>
    rw [State.physFrom, h k (Nat.le_refl k) (by omega)]
    simp only [ih (k + 1) fun j h1 h2 => h j (by omega) (by omega)]
    rfl

theorem State.seenBytes_quiet {s : State} (h : s.batch = []) (k : Nat) (ps : List Addr) :
    s.seenBytes k ps = ps.map fun p => s.mem.read p.toNat := by
  induction ps generalizing k with
  | nil => rfl
  | cons p ps ih => simp [State.seenBytes, State.seenByte, h, ih]

theorem AlignOk.check {i : Instr} {m : MemForm} {s : State} (h : AlignOk i m s) :
    s.alignCheck (s.lin i m) i.width.bytes = .next () := by
  rw [State.alignCheck]
  rcases h with h | h | h
  · simp [h]
  · simp [h]
  · split
    · simp [h]
    · rfl

theorem Readable.readMemory {i : Instr} {m : MemForm} {s : State} {phys : Nat → Addr} (h : Readable i m s phys) :
    s.readMemory (s.seg i m) (s.ea i m) i.width.bytes
      = .next (joinBytes (s.seenBytes 0 ((List.range i.width.bytes).map phys))) := by
  rw [State.readMemory, h.address.check, Out.andThen_next]
  have hp := State.physFrom_eq_ok (s := s) (lin := s.lin i m) (phys := phys) i.width.bytes 0
    fun j _ hj => h.translates j (by omega)
  have ha := h.aligned.check
  simp only [State.lin] at hp ha
  simp only [hp, ha, Out.andThen_next, List.range_eq_range']

/-- The value of the operand, as the form's view of it (R14). -/
def viewOf (i : Instr) (src : Vec) : Vec :=
  match i.rm with
  | .mem _ => src
  | .reg _ =>
    match i.width with
    | .w128 => (src.extractLsb' 0 128).setWidth 256
    | .w256 => src

theorem SourceIs.readRm {i : Instr} {s : State} {src : Vec} (h : SourceIs i s src) :
    s.readRm i = .next (viewOf i src) := by
  rw [State.readRm]
  rw [SourceIs] at h
  rw [viewOf]
  split at h
  · rename_i r hr
    rw [hr]
    subst h
    rfl
  · rename_i m hm
    obtain ⟨hq, phys, hr, rfl⟩ := h
    rw [hm]
    simp only [hr.readMemory, State.seenBytes_quiet hq, operandBytes, List.map_map]
    rfl

/-! ### Lanes -/

theorem lane0_view (v : Vec) : lane0 ((v.extractLsb' 0 128).setWidth 256) = lane0 v := by
  simp only [lane0]
  ext j hj
  simp [BitVec.getElem_extractLsb', hj]
  omega

/-- The 128-bit forms read the low lane of a register only, so the view and the register give the same result. -/
theorem resultOf_view (i : Instr) (s : State) (src : Vec) : resultOf i s (viewOf i src) = resultOf i s src := by
  cases i with
  | var128 p d a m => cases m <;> simp [resultOf, viewOf, Instr.rm, Instr.width, varResult, fromLanes, lane0_view]
  | imm128 p d m b => cases m <;> simp [resultOf, viewOf, Instr.rm, Instr.width, immResult, fromLanes, lane0_view]
  | var256 p d a m => cases m <;> rfl
  | imm256 p d m b => cases m <;> rfl

/-- A ready instruction whose operand has a value completes with its two changes (R86). -/
theorem Ready.exec {i : Instr} {s : State} {src : Vec} (h : Ready i s) (hs : SourceIs i s src) :
    exec i s = .next (s.complete i (resultOf i s src)) := by
  rw [exec_of_parts h.gate hs.readRm, resultOf_view]

end Sys2Proof.Machine
end

