-- ==== Sys2Proof/Laws/Fetch.lean ====
section
/-! SUPPORT. The decoder decides by the bytes it needs and no others (spec 30_encoding.md R79), so fetching byte by byte
reaches the verdict on any fetched bytes that decide it (60_exceptions.md R112). -/

namespace Sys2Proof

/-! ### Bytes after those that decide play no part -/

theorem takeDisp32_append {t u : List Byte} {d : BitVec 32} {r : List Byte} (h : takeDisp32 t = some (d, r)) :
    takeDisp32 (t ++ u) = some (d, r ++ u) := by
  match t, h with
  | d0 :: d1 :: d2 :: d3 :: t, h =>
    simp only [takeDisp32, Option.some.injEq, Prod.mk.injEq] at h
    simp [takeDisp32, h.1, h.2]

theorem takeDisp_append {md : BitVec 2} {t u : List Byte} {d : Disp} {r : List Byte}
    (h : takeDisp md t = some (d, r)) : takeDisp md (t ++ u) = some (d, r ++ u) := by
  unfold takeDisp at h ⊢
  split at h
  · rename_i h0
    rw [if_pos h0]
    simp only [Option.some.injEq, Prod.mk.injEq] at h
    simp [h.1, h.2]
  · rename_i h0
    rw [if_neg h0]
    split at h
    · rename_i h1
      rw [if_pos h1]
      match t, h with
      | b :: t, h =>
        simp only [Option.some.injEq, Prod.mk.injEq] at h
        simp [h.1, h.2]
    · rename_i h1
      rw [if_neg h1]
      obtain ⟨⟨d', r'⟩, hd, he⟩ := Option.map_eq_some_iff.mp h
      simp only [Prod.mk.injEq] at he
      rw [takeDisp32_append hd]
      simp [he.1, he.2]

theorem takeSib_append {md : BitVec 2} {x b : BitVec 1} {t u : List Byte} {rm : Rm} {r : List Byte}
    (h : takeSib md x b t = some (rm, r)) : takeSib md x b (t ++ u) = some (rm, r ++ u) := by
  match t, h with
  | sib :: t, h =>
    simp only [List.cons_append, takeSib] at h ⊢
    split at h
    · rename_i hc
      rw [if_pos hc]
      obtain ⟨⟨d', r'⟩, hd, he⟩ := Option.map_eq_some_iff.mp h
      simp only [Prod.mk.injEq] at he
      rw [takeDisp32_append hd]
      simp [he.1, he.2]
    · rename_i hc
      rw [if_neg hc]
      obtain ⟨⟨d', r'⟩, hd, he⟩ := Option.map_eq_some_iff.mp h
      simp only [Prod.mk.injEq] at he
      rw [takeDisp_append hd]
      simp [he.1, he.2]

theorem takeRm_append {m : Mode} {x b : BitVec 1} {modrm : Byte} {t u : List Byte} {rm : Rm} {r : List Byte}
    (h : takeRm m x b modrm t = some (rm, r)) : takeRm m x b modrm (t ++ u) = some (rm, r ++ u) := by
  unfold takeRm at h ⊢
  simp only at h ⊢
  split at h
  · rename_i hc
    rw [if_pos hc]
    simp only [Option.some.injEq, Prod.mk.injEq] at h
    simp [h.1, h.2]
  · rename_i hc
    rw [if_neg hc]
    split at h
    · rename_i hc
      rw [if_pos hc]
      exact takeSib_append h
    · rename_i hc
      rw [if_neg hc]
      split at h
      · rename_i hc
        rw [if_pos hc]
        obtain ⟨⟨d', r'⟩, hd, he⟩ := Option.map_eq_some_iff.mp h
        simp only [Prod.mk.injEq] at he
        rw [takeDisp32_append hd]
        simp [he.1, he.2]
      · rename_i hc
        rw [if_neg hc]
        obtain ⟨⟨d', r'⟩, hd, he⟩ := Option.map_eq_some_iff.mp h
        simp only [Prod.mk.injEq] at he
        rw [takeDisp_append hd]
        simp [he.1, he.2]

theorem takeImm_append {row : Row} {t u : List Byte} {imm : BitVec 8} (h : takeImm row t = some imm) :
    takeImm row (t ++ u) = some imm := by
  cases row with
  | rvm => exact h
  | rmi =>
    match t, h with
    | b :: t, h => exact h

theorem decodeOperands_append {m : Mode} {a : Scan} {p1 p2 : Byte} {row : Row} {t : List Byte} (u : List Byte)
    (h : decodeOperands m a p1 p2 row t ≠ .short) :
    decodeOperands m a p1 p2 row (t ++ u) = decodeOperands m a p1 p2 row t := by
  match t, h with
  | [], h => exact absurd rfl h
  | modrm :: t, h =>
    simp only [List.cons_append, decodeOperands] at h ⊢
    cases hr : takeRm m (~~~(p1.extractLsb' 6 1)) (~~~(p1.extractLsb' 5 1)) modrm t with
    | none => simp [hr] at h
    | some q =>
      obtain ⟨rm, r⟩ := q
      cases hi : takeImm row r with
      | none => simp [hr, hi] at h
      | some imm => simp only [takeRm_append hr, takeImm_append hi, hi]

theorem decodeVex_append {m : Mode} {a : Scan} {t : List Byte} (u : List Byte) (h : decodeVex m a t ≠ .short) :
    decodeVex m a (t ++ u) = decodeVex m a t := by
  match t, h with
  | [], h => exact absurd rfl h
  | [_], h => exact absurd rfl h
  | [_, _], h => exact absurd rfl h
  | p1 :: p2 :: op :: t, h =>
    simp only [List.cons_append, decodeVex] at h ⊢
    split
    · rfl
    · rename_i hc
      rw [if_neg hc] at h
      split
      · rfl
      · rename_i row hrow
        simp only [hrow] at h
        split
        · rfl
        · rename_i hc
          rw [if_neg hc] at h
          split
          · rfl
          · rename_i hc
            rw [if_neg hc] at h
            exact decodeOperands_append u h

/-- Step 1 on more bytes: the same stop, or the same scan with the bytes at its end. -/
theorem scanPrefixes_append {m : Mode} {a : Scan} {t : List Byte} (u : List Byte)
    (h : scanPrefixes m a t ≠ .stop .short) :
    scanPrefixes m a (t ++ u) =
      match scanPrefixes m a t with
      | .stop v => .stop v
      | .done c r => .done c (r ++ u) := by
  induction t generalizing a with
  | nil => exact absurd rfl h
  | cons b t ih =>
    rw [List.cons_append]
    unfold scanPrefixes at h ⊢
    split
    · rename_i g hg
      simp only [hg] at h
      split
      · rfl
      · rename_i hc
        rw [if_neg hc] at h
        exact ih h
    · rename_i hg
      simp only [hg] at h
      split
      · rename_i hc
        rw [if_pos hc] at h
        split
        · rfl
        · rename_i hc
          rw [if_neg hc] at h
          exact ih h
      · rename_i hc
        rw [if_neg hc] at h
        split
        · rename_i hc
          rw [if_pos hc] at h
          exact ih h
        · rename_i hc
          rw [if_neg hc] at h
          split
          · rename_i hc
            rw [if_pos hc] at h
            cases t with
            | nil => exact absurd rfl h
            | cons c t =>
              simp only [List.cons_append, List.head?_cons] at h ih ⊢
              split
              · rename_i hc
                rw [if_pos hc] at h
                exact ih h
              · split <;> rfl
          · rfl

theorem decode_eq_short_of_scan {m : Mode} {t : List Byte} (h : scanPrefixes m Scan.start t = .stop .short) :
    decode m t = .short := by
  rw [decode, h]

/-- Where the decoder's verdict is known, more bytes do not change it. -/
theorem decode_append {m : Mode} {t : List Byte} (u : List Byte) (h : decode m t ≠ .short) :
    decode m (t ++ u) = decode m t := by
  have hs : scanPrefixes m Scan.start t ≠ .stop .short := fun e => h (decode_eq_short_of_scan e)
  have ha := scanPrefixes_append u hs
  unfold decode at h ⊢
  rw [ha]
  cases hr : scanPrefixes m Scan.start t with
  | stop v => rfl
  | done a r =>
    simp only [hr] at h
    cases r with
    | nil => exact absurd rfl h
    | cons b r =>
      simp only [List.cons_append] at h ⊢
      split
      · rename_i hc
        rw [if_pos hc] at h
        exact decodeVex_append u h
      · rfl

namespace Machine

/-! ### Fetching byte by byte -/

theorem State.fetchDecode_short {s : State} {n : Nat} {bytes : List Byte} (h : decode s.mode bytes = .short) :
    s.fetchDecode (n + 1) bytes = (s.fetchByte bytes.length).andThen fun b => s.fetchDecode n (bytes ++ [b]) := by
  rw [State.fetchDecode, h]

theorem State.fetchDecode_known {s : State} {n : Nat} {bytes : List Byte} (h : decode s.mode bytes ≠ .short) :
    s.fetchDecode (n + 1) bytes = .next (decode s.mode bytes) := by
  rw [State.fetchDecode]
  split <;> simp_all

theorem Fetches.append {s : State} {bytes : List Byte} {b : Byte} (h : Fetches s bytes)
    (hb : s.fetchByte bytes.length = .next b) : Fetches s (bytes ++ [b]) := by
  intro k hk
  rw [List.length_append, List.length_singleton] at hk
  by_cases hlt : k < bytes.length
  · rw [h k hlt, List.getElem_append_left hlt]
  · have he : k = bytes.length := by omega
    subst he
    rw [hb, List.getElem_concat_length rfl]

/-- What fetching and decoding answers: the verdict, not `short`, on fetched bytes. -/
theorem State.fetchDecode_eq_next {s : State} {n : Nat} {bytes : List Byte} {v : Verdict} (hf : Fetches s bytes)
    (h : s.fetchDecode n bytes = .next v) : ∃ all, Fetches s all ∧ decode s.mode all = v ∧ v ≠ .short := by
  induction n generalizing bytes with
  | zero => simp [State.fetchDecode] at h
  | succ n ih =>
    by_cases hd : decode s.mode bytes = .short
    · rw [State.fetchDecode_short hd] at h
      obtain ⟨b, hb, h⟩ := Out.andThen_eq_next h
      exact ih (hf.append hb) h
    · rw [State.fetchDecode_known hd] at h
      injection h with h
      exact ⟨bytes, hf, h, h ▸ hd⟩

theorem Fetches.nil (s : State) : Fetches s [] := fun k hk => absurd hk (Nat.not_lt_zero k)

/-- A fetched byte is the memory's content where the oracle answers, and in `Mode64` its offset is canonical. -/
theorem State.fetchByte_eq_next {s : State} {k : Nat} {b : Byte} (h : s.fetchByte k = .next b) :
    (s.mode = .mode64 → s.canonical (s.ip + BitVec.ofNat 64 k) = true) ∧
      ∃ p, s.translate (s.codeLinear (s.ip + BitVec.ofNat 64 k)) .fetch = .phys p ∧ s.mem.read p.toNat = b := by
  rw [State.fetchByte] at h
  split at h
  · simp at h
  · rename_i h1
    split at h
    · simp at h
    · split at h
      · simp at h
      · split at h
        · rename_i p hp
          injection h with h
          refine ⟨fun hm => ?_, p, hp, h⟩
          simp only [hm, decide_true, Bool.true_and, Bool.or_eq_true, Bool.not_eq_true', not_or] at h1
          simpa using h1.2
        · simp at h

/-- A fetched byte lies within `2^64` bytes of `rip`. -/
theorem State.fetchByte_bound {s : State} {k : Nat} {b : Byte} (h : s.fetchByte k = .next b) : k < 2 ^ 64 := by
  rw [State.fetchByte] at h
  by_contra hk
  by_cases hm : s.mode = .mode64
  · rw [if_pos] at h
    · simp at h
    · simp [hm]
      omega
  · rw [if_neg (by simp [hm]), if_pos] at h
    · simp at h
    · simp [hm]
      omega

theorem Fetches.length_le {s : State} {bytes : List Byte} (h : Fetches s bytes) : bytes.length ≤ 2 ^ 64 := by
  by_contra hl
  have := State.fetchByte_bound (h (bytes.length - 1) (by omega))
  omega

/-- As long as the fetched bytes leave the verdict open, fetching goes on through them. -/
theorem State.fetchDecode_through {s : State} {bytes : List Byte} (hf : Fetches s bytes)
    (ho : ∀ k < bytes.length, decode s.mode (bytes.take k) = .short) (j n : Nat) (hj : j ≤ bytes.length) :
    s.fetchDecode (j + n) [] = s.fetchDecode n (bytes.take j) := by
  induction j generalizing n with
  | zero => simp
  | succ j ih =>
    rw [show j + 1 + n = j + (n + 1) from by omega, ih (n + 1) (by omega), State.fetchDecode_short (ho j (by omega)),
      List.length_take_of_le (by omega), hf j (by omega), Out.andThen_next, List.take_concat_get' bytes j (by omega)]

/-- The decoder leaves the verdict open on the first bytes of any that leave it open. -/
theorem decode_take_short {m : Mode} {bytes : List Byte} (h : decode m bytes = .short) (k : Nat) :
    decode m (bytes.take k) = .short := by
  by_contra hs
  have := decode_append (bytes.drop k) hs
  rw [List.take_append_drop] at this
  exact hs (this ▸ h)

/-- Fetching reaches the end of any fetched bytes that leave the verdict open. -/
theorem State.fetchDecode_open {s : State} {bytes : List Byte} (hf : Fetches s bytes)
    (hd : decode s.mode bytes = .short) :
    ∃ n, s.fetchDecode fetchFuel [] = (s.fetchByte bytes.length).andThen fun b => s.fetchDecode n (bytes ++ [b]) := by
  have hl := hf.length_le
  refine ⟨2 ^ 64 - bytes.length, ?_⟩
  have h := State.fetchDecode_through hf (fun k _ => decode_take_short hd k) bytes.length
    (2 ^ 64 - bytes.length + 1) (Nat.le_refl _)
  rw [List.take_length, State.fetchDecode_short hd] at h
  rw [← h, fetchFuel]
  congr 1
  omega

/-- Fetching and decoding reaches the verdict on any fetched bytes that decide it. -/
theorem State.fetchDecode_of_fetches {s : State} {bytes : List Byte} (hf : Fetches s bytes)
    (hd : decode s.mode bytes ≠ .short) : s.fetchDecode fetchFuel [] = .next (decode s.mode bytes) := by
  have hl := hf.length_le
  obtain ⟨j, hj, ho⟩ : ∃ j, decode s.mode (bytes.take j) ≠ .short ∧
      ∀ k < j, decode s.mode (bytes.take k) = .short := by
    have hex : ∃ j, decode s.mode (bytes.take j) ≠ .short := ⟨bytes.length, by rwa [List.take_length]⟩
    classical
    exact ⟨Nat.find hex, Nat.find_spec hex, fun k hk => not_not.mp (Nat.find_min hex hk)⟩
  have hjl : j ≤ bytes.length := by
    by_contra hgt
    have := ho bytes.length (by omega)
    rw [List.take_length] at this
    exact hd this
  have hft : Fetches s (bytes.take j) := by
    intro k hk
    rw [List.length_take] at hk
    rw [hf k (by omega), List.getElem_take]
  have h := State.fetchDecode_through hft
    (fun k hk => by
      rw [List.length_take] at hk
      rw [List.take_take, Nat.min_eq_left (by omega)]
      exact ho k (by omega)) j (2 ^ 64 - j + 1) (by rw [List.length_take_of_le hjl])
  rw [List.take_take, Nat.min_self, State.fetchDecode_known hj] at h
  have he : decode s.mode bytes = decode s.mode (bytes.take j) := by
    have := decode_append (bytes.drop j) hj
    rwa [List.take_append_drop] at this
  rw [he, ← h, fetchFuel]
  congr 1
  omega

/-! ### A step on fetched bytes -/

theorem premises_of {s : State} (hq : LQuiet s) (ht : TextUnwritten s) : premises s = .next () := by
  have ht' : s.textWritten = false := ht
  simp [premises, hq.1, hq.2, ht']

/-- Where the premises hold, the step does what the verdict on any fetched bytes that decide it says (R113). -/
theorem step_of_fetches {s : State} {bytes : List Byte} (hq : LQuiet s) (ht : TextUnwritten s)
    (hf : Fetches s bytes) (hd : decode s.mode bytes ≠ .short) : step s = onVerdict s (decode s.mode bytes) := by
  rw [step, premises_of hq ht, State.fetchDecode_of_fetches hf hd]
  rfl

/-- Where the premises hold and the fetched bytes leave the verdict open, a next byte that cannot be fetched ends the step
(R112). -/
theorem step_of_open {s : State} {bytes : List Byte} (hq : LQuiet s) (ht : TextUnwritten s) (hf : Fetches s bytes)
    (hd : decode s.mode bytes = .short) :
    ∃ n, step s = ((s.fetchByte bytes.length).andThen fun b => s.fetchDecode n (bytes ++ [b])).andThen (onVerdict s) := by
  obtain ⟨n, hn⟩ := State.fetchDecode_open hf hd
  exact ⟨n, by rw [step, premises_of hq ht, hn]; rfl⟩

end Machine

end Sys2Proof
end

