-- ==== Sys2Proof/Laws/Lanes.lean ====
section
/-! SUPPORT. Fields of an append, of a lane, and of a form's result: what the result lemmas of R87 to R90 cite instead
of unfolding the bit-vector operations. -/

namespace Sys2Proof.Machine

/-! ### Fields of an append -/

theorem field_append_low {a b : Nat} (x : BitVec a) (y : BitVec b) (k n : Nat) (h : k + n ≤ b) :
    (x ++ y).extractLsb' k n = y.extractLsb' k n := by
  ext j hj
  simp only [BitVec.getElem_extractLsb', BitVec.getLsbD_append]
  rw [if_pos (by omega)]

theorem field_append_high {a b : Nat} (x : BitVec a) (y : BitVec b) (k n : Nat) :
    (x ++ y).extractLsb' (b + k) n = x.extractLsb' k n := by
  ext j hj
  simp only [BitVec.getElem_extractLsb', BitVec.getLsbD_append]
  rw [if_neg (by omega)]
  congr 1
  omega

theorem field_all {n : Nat} (x : BitVec n) : x.extractLsb' 0 n = x := by
  ext j hj
  simp

theorem field_field {w : Nat} (x : BitVec w) (a b k n : Nat) (h : k + n ≤ b) :
    (x.extractLsb' a b).extractLsb' k n = x.extractLsb' (a + k) n := by
  ext j hj
  simp only [BitVec.getElem_extractLsb', BitVec.getLsbD_extractLsb', Nat.add_assoc]
  rw [decide_eq_true (by omega), Bool.true_and]

theorem Lane.elem0 (d c b a : Elem) : (d ++ c ++ b ++ a : Lane).extractLsb' 0 32 = a := by
  rw [field_append_low _ a 0 32 (by omega), field_all]

theorem Lane.elem1 (d c b a : Elem) : (d ++ c ++ b ++ a : Lane).extractLsb' 32 32 = b := by
  rw [field_append_high _ a 0 32, field_append_low _ b 0 32 (by omega), field_all]

theorem Lane.elem2 (d c b a : Elem) : (d ++ c ++ b ++ a : Lane).extractLsb' 64 32 = c := by
  rw [field_append_high _ a 32 32, field_append_high _ b 0 32, field_append_low _ c 0 32 (by omega), field_all]

theorem Lane.elem3 (d c b a : Elem) : (d ++ c ++ b ++ a : Lane).extractLsb' 96 32 = d := by
  rw [field_append_high _ a 64 32, field_append_high _ b 32 32, field_append_high _ c 0 32, field_all]

/-! ### Lanes (R7, R14) -/

/-- A field of a vector's lane 0. -/
theorem lane0_field (v : Vec) (k n : Nat) (h : k + n ≤ 128) : (lane0 v).extractLsb' k n = v.extractLsb' k n := by
  rw [lane0, field_field v 0 128 k n h, Nat.zero_add]

/-- A field of a vector's lane 1. -/
theorem lane1_field (v : Vec) (k n : Nat) (h : k + n ≤ 128) :
    (lane1 v).extractLsb' k n = v.extractLsb' (128 + k) n :=
  field_field v 128 128 k n h

/-- The low lane of the form's view of a register (R14). -/
theorem lane0_readVec (s : State) (w : Width) (n : RegNum) : lane0 (s.readVec w n) = lane0 (s.readV n) := by
  cases w with
  | w128 => exact lane0_view _
  | w256 => rfl

/-! ### The result from its lanes (R87 to R90, R96) -/

theorem fromLanes_low (w : Width) (hi lo : Lane) (k n : Nat) (h : k + n ≤ 128) :
    (fromLanes w hi lo).extractLsb' k n = lo.extractLsb' k n := by
  cases w with
  | w128 => exact field_append_low _ lo k n h
  | w256 => exact field_append_low _ lo k n h

theorem fromLanes_high_w256 (hi lo : Lane) (k n : Nat) :
    (fromLanes .w256 hi lo).extractLsb' (128 + k) n = hi.extractLsb' k n :=
  field_append_high hi lo k n

theorem fromLanes_high_w128 (hi lo : Lane) : (fromLanes .w128 hi lo).extractLsb' 128 128 = 0#128 := by
  rw [fromLanes, field_append_high (0#128) lo 0 128, field_all]

end Sys2Proof.Machine
end

