-- ==== Sys2Proof/Laws/Memory.lean ====
section
/-! SUPPORT. Memory: reads after writes, and that every memory operation keeps the canonical form. -/

namespace Sys2Proof.Machine

@[simp] theorem Memory.wf_nil : Memory.wf [] := by simp [Memory.wf]

theorem Memory.wf_cons {b : Nat} {u : Byte} {m : Memory} :
    Memory.wf ((b, u) :: m) ↔ (∀ c ∈ m, b < c.1) ∧ u ≠ Memory.unlisted ∧ Memory.wf m := by
  simp only [Memory.wf, List.map_cons, List.pairwise_cons, List.mem_cons, forall_eq_or_imp, List.mem_map]
  constructor
  · rintro ⟨⟨h1, h2⟩, h3, h4⟩
    exact ⟨fun c hc => h1 c.1 ⟨c, hc, rfl⟩, h3, h2, h4⟩
  · rintro ⟨h1, h3, h2, h4⟩
    exact ⟨⟨fun a ⟨c, hc, e⟩ => e ▸ h1 c hc, h2⟩, h3, h4⟩

/-- Below its first address a canonical memory lists nothing. -/
theorem Memory.read_of_below {m : Memory} {a : Nat} (h : ∀ c ∈ m, a < c.1) : m.read a = Memory.unlisted := by
  induction m with
  | nil => rfl
  | cons c m ih =>
    obtain ⟨b, u⟩ := c
    have hb : a < b := h (b, u) (by simp)
    rw [Memory.read, if_neg (by omega)]
    exact ih fun c hc => h c (by simp [hc])

/-- The addresses a write leaves listed are old ones or the one written. -/
theorem Memory.mem_write {m : Memory} {a : Nat} {w : Byte} {c : Host.Cell} (h : c ∈ m.write a w) :
    c.1 = a ∨ c ∈ m := by
  induction m with
  | nil =>
    simp only [Memory.write] at h
    split at h <;> simp_all
  | cons d m ih =>
    obtain ⟨b, u⟩ := d
    simp only [Memory.write] at h
    split at h
    · split at h <;> simp_all
      rcases h with h | h | h <;> simp [h]
    · split at h
      · split at h <;> simp_all
        rcases h with h | h <;> simp [h]
      · rcases List.mem_cons.1 h with h | h
        · simp [h]
        · rcases ih h with h | h <;> simp [h]

/-- A write keeps the canonical form. -/
theorem Memory.write_wf {m : Memory} (h : m.wf) (a : Nat) (w : Byte) : (m.write a w).wf := by
  induction m with
  | nil => by_cases hw : w = Memory.unlisted <;> simp [Memory.write, hw, Memory.wf]
  | cons d m ih =>
    obtain ⟨b, u⟩ := d
    obtain ⟨hlt, hu, hm⟩ := Memory.wf_cons.1 h
    simp only [Memory.write]
    split
    · split
      · exact h
      · refine Memory.wf_cons.2 ⟨?_, ‹_›, h⟩
        rintro c hc
        rcases List.mem_cons.1 hc with rfl | hc
        · assumption
        · exact Nat.lt_trans ‹a < b› (hlt c hc)
    · split
      · split
        · exact hm
        · exact Memory.wf_cons.2 ⟨by subst_vars; exact hlt, ‹_›, hm⟩
      · refine Memory.wf_cons.2 ⟨fun c hc => ?_, hu, ih hm⟩
        rcases Memory.mem_write hc with e | hc
        · omega
        · exact hlt c hc

/-- A read after a write: the byte written at its address, every other byte as before. -/
theorem Memory.read_write {m : Memory} (h : m.wf) (a b : Nat) (w : Byte) :
    (m.write a w).read b = if b = a then w else m.read b := by
  induction m with
  | nil =>
    simp only [Memory.write]
    split
    · split <;> simp_all [Memory.read]
    · simp only [Memory.read]
      split <;> split <;> simp_all
  | cons d m ih =>
    obtain ⟨e, u⟩ := d
    obtain ⟨hlt, hu, hm⟩ := Memory.wf_cons.1 h
    simp only [Memory.write]
    split
    · have hbelow : Memory.read ((e, u) :: m) a = Memory.unlisted :=
        Memory.read_of_below fun c hc => by
          rcases List.mem_cons.1 hc with rfl | hc
          · assumption
          · exact Nat.lt_trans ‹a < e› (hlt c hc)
      split
      · split
        · subst_vars; exact hbelow
        · rfl
      · rw [Memory.read]
        by_cases hb : b = a
        · simp [hb]
        · rw [if_neg hb, if_neg (Ne.symm hb)]
    · split
      · subst_vars
        split
        · split
          · subst_vars
            exact Memory.read_of_below hlt
          · rw [Memory.read, if_neg (by omega)]
        · simp only [Memory.read]
          by_cases hb : b = e <;> simp [hb, eq_comm]
      · simp only [Memory.read, ih hm]
        by_cases hb : e = b
        · subst hb
          rw [if_pos rfl, if_neg (by omega), if_pos rfl]
        · rw [if_neg hb, if_neg hb]

/-- The writes of other agents keep the canonical form. -/
theorem Memory.applyWrites_wf {m : Memory} (h : m.wf) (ws : List EnvWrite) : (m.applyWrites ws).wf := by
  induction ws generalizing m with
  | nil => exact h
  | cons w ws ih => exact ih (Memory.write_wf h _ _)

/-- Writes elsewhere leave a byte alone. -/
theorem Memory.read_applyWrites_of_ne {m : Memory} (h : m.wf) (ws : List EnvWrite) (a : Nat)
    (ha : ∀ w ∈ ws, w.addr.toNat ≠ a) : (m.applyWrites ws).read a = m.read a := by
  induction ws generalizing m with
  | nil => rfl
  | cons w ws ih =>
    have hw : m.applyWrites (w :: ws) = (m.write w.addr.toNat w.val).applyWrites ws := rfl
    rw [hw, ih (Memory.write_wf h _ _) fun x hx => ha x (List.mem_cons_of_mem _ hx), Memory.read_write h, if_neg]
    exact fun e => ha w List.mem_cons_self e.symm

/-- Placing bytes keeps the canonical form. -/
theorem Memory.writeBytes_wf {m : Memory} (h : m.wf) (a : Addr) (bs : List Byte) : (m.writeBytes a bs).wf := by
  induction bs generalizing m a with
  | nil => exact h
  | cons b bs ih => exact ih (Memory.write_wf h _ _) _

theorem State.reset_mem_wf : State.reset.mem.wf := Memory.wf_nil

end Sys2Proof.Machine
end

