-- ==== Sys2Proof/Laws/Paging.lean ====
section
/-! SUPPORT. The oracle answers a whole page alike, so a faulting byte of an operand has a faulting byte at or below it
whose address a page fault may report (spec 20_memory.md R42, R45). -/

namespace Sys2Proof.Machine

theorem pageOf_eq_of_toNat {a b : Addr} (h : a.toNat / 4096 = b.toNat / 4096) : pageOf a = pageOf b := by
  apply BitVec.eq_of_toNat_eq
  simp only [pageOf, BitVec.extractLsb'_toNat, Nat.shiftRight_eq_div_pow]
  rw [show 2 ^ 12 = 4096 from rfl, h]

theorem pageOffset_toNat (a : Addr) : (a.extractLsb' 0 12).toNat = a.toNat % 4096 := by
  simp [BitVec.extractLsb'_toNat]

/-- Two addresses of one page fault alike. -/
theorem State.translate_same_page {s : State} {a b : Addr} {kind : AccessKind} {c : BitVec 6}
    (hp : pageOf a = pageOf b) (h : s.translate a kind = .pageFault c) : s.translate b kind = .pageFault c := by
  unfold State.translate at h ⊢
  split at h
  · rename_i hg
    rw [if_pos hg]
    unfold Paging.translate at h ⊢
    rw [← hp]
    split at h
    · simp only [PageRange.translate] at h ⊢
      split at h
      · simp at h
      · exact h
    · split at h
      · simp at h
      · exact h
  · simp at h

/-- The next byte of an operand is in the same page, or it is the first of a page. -/
theorem State.byteLinear_page (s : State) (lin : Addr) (k : Nat) :
    (s.byteLinear lin (k + 1)).extractLsb' 0 12 = 0#12 ∨
      pageOf (s.byteLinear lin (k + 1)) = pageOf (s.byteLinear lin k) := by
  by_cases hz : (s.byteLinear lin (k + 1)).extractLsb' 0 12 = 0#12
  · exact .inl hz
  · refine .inr (pageOf_eq_of_toNat ?_)
    have hz' : (s.byteLinear lin (k + 1)).toNat % 4096 ≠ 0 := by
      intro h0
      exact hz (BitVec.eq_of_toNat_eq (by rw [pageOffset_toNat, h0]; rfl))
    unfold State.byteLinear at hz' ⊢
    split
    · rename_i hm
      rw [if_pos hm] at hz'
      simp only [BitVec.toNat_add, BitVec.toNat_ofNat] at hz' ⊢
      omega
    · rename_i hm
      rw [if_neg hm] at hz'
      simp only [BitVec.toNat_setWidth, BitVec.toNat_add, BitVec.toNat_ofNat] at hz' ⊢
      omega

/-- At or below a faulting byte there is one whose address may be reported, with the same code. -/
theorem State.reportable_below {s : State} {lin : Addr} {k : Nat} {c : BitVec 6}
    (h : s.translate (s.byteLinear lin k) .read = .pageFault c) :
    ∃ j ≤ k, (j = 0 ∨ (s.byteLinear lin j).extractLsb' 0 12 = 0#12) ∧
      s.translate (s.byteLinear lin j) .read = .pageFault c := by
  induction k with
  | zero => exact ⟨0, Nat.le_refl 0, .inl rfl, h⟩
  | succ k ih =>
    rcases s.byteLinear_page lin k with hz | hp
    · exact ⟨k + 1, Nat.le_refl _, .inr hz, h⟩
    · obtain ⟨j, hj, hr⟩ := ih (State.translate_same_page hp h)
      exact ⟨j, Nat.le_succ_of_le hj, hr⟩

/-- What a member of the choices is (R45). -/
theorem State.mem_faultChoices {s : State} {lin : Addr} {n : Nat} {x : Addr × BitVec 6} :
    x ∈ s.faultChoices lin n ↔
      ∃ k < n, (k = 0 ∨ (s.byteLinear lin k).extractLsb' 0 12 = 0#12) ∧
        s.translate (s.byteLinear lin k) .read = .pageFault x.2 ∧ x.1 = s.byteLinear lin k := by
  simp only [State.faultChoices, List.mem_filterMap, List.mem_range, Bool.or_eq_true, decide_eq_true_eq]
  constructor
  · rintro ⟨k, hk, h⟩
    split at h
    · rename_i hc
      refine ⟨k, hk, hc, ?_⟩
      unfold State.byteFault at h
      split at h
      · rename_i code ht
        injection h with h
        subst h
        exact ⟨ht, rfl⟩
      · simp at h
    · simp at h
  · rintro ⟨k, hk, hc, ht, hx⟩
    refine ⟨k, hk, ?_⟩
    rw [if_pos hc]
    simp only [State.byteFault, ht]
    rw [← hx]

/-- An operand with a faulting byte has a choice. -/
theorem State.faultChoices_ne_nil {s : State} {lin : Addr} {n k : Nat} {c : BitVec 6} (hk : k < n)
    (h : s.translate (s.byteLinear lin k) .read = .pageFault c) : s.faultChoices lin n ≠ [] := by
  obtain ⟨j, hj, hc, ht⟩ := State.reportable_below h
  exact List.ne_nil_of_mem (State.mem_faultChoices.mpr ⟨j, by omega, hc, ht, rfl⟩ :
    (s.byteLinear lin j, c) ∈ s.faultChoices lin n)

end Sys2Proof.Machine
end

