-- ==== Sys2Proof/Laws/PerInstr.lean ====
section
/-! SUPPORT. Statements made for every instruction as syntax, one lemma per constructor (spec 30_encoding.md R74). -/

namespace Sys2Proof.Laws.LengthBounds

/-- R74: an accepted encoding has at least 5 and at most 13 bytes. -/
def Statement (i : Instr) : Prop := 5 ≤ i.ilen ∧ i.ilen ≤ 13

theorem var128 (p : Prefixes) (dst src1 : RegNum) (rm : Rm) : Statement (.var128 p dst src1 rm) :=
  Instr.ilen_bounds _

theorem imm128 (p : Prefixes) (dst : RegNum) (rm : Rm) (imm : BitVec 8) : Statement (.imm128 p dst rm imm) :=
  Instr.ilen_bounds _

theorem var256 (p : Prefixes) (dst src1 : RegNum) (rm : Rm) : Statement (.var256 p dst src1 rm) :=
  Instr.ilen_bounds _

theorem imm256 (p : Prefixes) (dst : RegNum) (rm : Rm) (imm : BitVec 8) : Statement (.imm256 p dst rm imm) :=
  Instr.ilen_bounds _

end Sys2Proof.Laws.LengthBounds
end

