-- ==== Sys2Proof/Laws/Run.lean ====
section
/-! SUPPORT. What a run through a program rests on (spec 70_reset_and_hazards.md R132, R136): the length of the program's
bytes, the instruction pointer of a launch state, and that a step's changes leave the premises about the instructions still
to come as they were. -/

namespace Sys2Proof.Machine

theorem Program.bytes_length (p : Program) (h : ∀ c ∈ p, c.2.length = c.1.ilen) :
    (Program.bytes p).length = (p.map fun c => c.1.ilen).sum := by
  induction p with
  | nil => rfl
  | cons c p ih =>
    have hp := ih fun x hx => h x (List.mem_cons_of_mem _ hx)
    simp only [Program.bytes, List.flatMap_cons, List.length_append, List.map_cons, List.sum_cons] at hp ⊢
    rw [hp, h c List.mem_cons_self]

theorem State.ip_eq_rip {s : State} (h : s.mode ≠ .mode64 → s.rip.toNat < 2 ^ 32) : s.ip = s.rip := by
  by_cases h64 : s.mode = .mode64
  · simp [State.ip, h64]
  · apply BitVec.eq_of_toNat_eq
    have := h h64
    simp only [State.ip, if_neg h64, BitVec.toNat_setWidth]
    omega

theorem State.nextIp_toNat {s : State} {len : Nat} (h : s.ip.toNat + len < 2 ^ 64) :
    (s.nextIp len).toNat = s.ip.toNat + len := by
  rw [State.nextIp, BitVec.toNat_add, BitVec.toNat_ofNat]
  omega

/-- The enabling state holds in protected mode only (R103). -/
theorem enabled_mode {s : State} (h : enabled s = .next ()) : s.mode ≠ .modeReal ∧ s.mode ≠ .modeV86 := by
  rw [enabled] at h
  constructor <;> (intro e; rw [e] at h; simp at h)

/-- A state with other vector registers, memory, batches to come and counter: all that a step changes beside `rip`. -/
def State.afterOthers (s : State) (v : Vector Vec 16) (m : Memory) (e : List (List EnvWrite)) (n : Nat) : State :=
  { s with v := v, mem := m, env := e, tick := n }

theorem LMem.afterOthers {p : Program} {s : State} (h : LMem p s) (v : Vector Vec 16) (m : Memory)
    (e : List (List EnvWrite)) (n : Nat) : LMem p (s.afterOthers v m e n) := by
  induction p generalizing s with
  | nil => exact h
  | cons c p ih => exact ⟨h.1, ih h.2⟩

theorem Readable.afterOthers {i : Instr} {o : MemForm} {phys : Nat → Addr} {s : State} (h : Readable i o s phys)
    (v : Vector Vec 16) (m : Memory) (e : List (List EnvWrite)) (n : Nat) :
    Readable i o (s.afterOthers v m e n) phys :=
  ⟨⟨h.address.wrap, h.address.canonical, h.address.segment⟩, h.translates, h.aligned⟩

theorem OperandsReadable.afterOthers {p : Program} {s : State} (h : OperandsReadable p s) (v : Vector Vec 16)
    (m : Memory) (e : List (List EnvWrite)) (n : Nat) : OperandsReadable p (s.afterOthers v m e n) := by
  induction p generalizing s with
  | nil => exact h
  | cons c p ih => exact ⟨fun o ho => (h.1 o ho).imp fun _ hr => hr.afterOthers v m e n, ih h.2⟩

end Sys2Proof.Machine
end

