-- ==== Sys2Proof/Tests/Slice0.lean ====
section
/-! SUPPORT. Tests with expected results from spec/95_test_vectors.md, a smoke test of the well-formedness checks, and
for every obligation that has hypotheses one theorem (wit_…) that shows them met together. -/

namespace Sys2Proof.Tests

set_option Elab.async false

open Sys2Proof.Machine

/-! ### Helpers -/

/-- No prefix. -/
def np : Prefixes := { seg := none, addr67 := false }

/-- A vector from its elements, element 0 first. -/
def vec (l : List Nat) : Vec := BitVec.ofNat 256 (l.foldr (fun e a => e + 2 ^ 32 * a) 0)

/-- F256 of section 2. -/
def f256 : Vec :=
  vec [0x3F800000, 0x40000000, 0x40400000, 0x40800000, 0x40A00000, 0x40C00000, 0x40E00000, 0x41000000]

/-- The next state of an outcome. -/
def nextOf (o : Out State) : Option State :=
  match o with
  | .next t => some t
  | .fault _ => none
  | .refused _ => none

/-- The fault of an outcome. -/
def faultOf (o : Out State) : Option Fault :=
  match o with
  | .next _ => none
  | .fault f => some f
  | .refused _ => none

/-- The refusal of an outcome. -/
def refusedOf (o : Out State) : Option Refusal :=
  match o with
  | .next _ => none
  | .fault _ => none
  | .refused r => some r

theorem next_of_isSome {o : Out State} (h : (nextOf o).isSome = true) : ∃ t, o = .next t := by
  cases o with
  | next t => exact ⟨t, rfl⟩
  | fault f => simp [nextOf] at h
  | refused r => simp [nextOf] at h

/-- Memory with these bytes at rising addresses. -/
def bytesAt (a : Addr) (bs : List Byte) : Memory := Memory.writeBytes [] a bs

/-- A launched 64-bit state at 40_0000H with F256 in V[2]. -/
def s64 : State :=
  let s := State.reset.launch
  { s with rip := 0x400000#64, v := s.v.set 2 f256 }

/-- The control state of a 32-bit protected mode without paging, flat segments, at 40_1000H. -/
def s32 : State :=
  let flat : SegReg := { SegReg.reset with limit := 0xFFFFFFFF#32 }
  let s := State.reset.launch
  { s with cr0 := 0x1#64, efer := 0, csL := false, csD := true, rip := 0x401000#64, v := s.v.set 2 f256,
           es := flat, cs := flat, ss := flat, ds := flat, fs := flat, gs := flat }

/-- A state with a general register set. -/
def setX (s : State) (n : Fin 16) (a : Addr) : State := { s with x := s.x.set n a }

/-- A state with a vector register set. -/
def setV (s : State) (n : Fin 16) (a : Vec) : State := { s with v := s.v.set n a }

/-- `[reg]` without a displacement. -/
def atReg (r : RegNum) : MemForm := .base r .none

/-- `xmm1, xmm2, xmm3` and its memory form with `[rax]`; the same for the other three rows. -/
def v128 : Instr := .var128 np 1 2 (.reg 3)
def v128m : Instr := .var128 np 1 2 (.mem (atReg 0))
def i128 : Instr := .imm128 np 1 (.reg 2) 0x1B
def i128m : Instr := .imm128 np 1 (.mem (atReg 0)) 0x1B
def v256 : Instr := .var256 np 1 2 (.reg 3)
def v256m : Instr := .var256 np 1 2 (.mem (atReg 0))
def i256 : Instr := .imm256 np 1 (.reg 2) 0x1B
def i256m : Instr := .imm256 np 1 (.mem (atReg 0)) 0x1B

/-- The eight instructions above. -/
def all8 : List Instr := [v128, v128m, i128, i128m, v256, v256m, i256, i256m]

/-! ### Decoding: words from sections 2.2 and 2.3 -/

/-- Section 2.2, form 1 (row RVM, 128 bits), `Mode64`: registers, displacements, SIB, RIP-relative, prefixes. -/
theorem test_decode_var128 :
    decode .mode64 [0xC4, 0xE2, 0x69, 0x0C, 0xCB] = .form (.var128 np 1 2 (.reg 3)) ∧
    decode .mode64 [0xC4, 0x42, 0x09, 0x0C, 0xFD] = .form (.var128 np 15 14 (.reg 13)) ∧
    decode .mode64 [0xC4, 0xA2, 0x69, 0x0C, 0xCB] = .form (.var128 np 1 2 (.reg 3)) ∧
    decode .mode64 [0xC4, 0xE2, 0x69, 0x0C, 0x48, 0x80] = .form (.var128 np 1 2 (.mem (.base 0 (.d8 0x80)))) ∧
    decode .mode64 [0xC4, 0xE2, 0x69, 0x0C, 0x0C, 0x20] = .form (.var128 np 1 2 (.mem (.sib 0 none .none))) ∧
    decode .mode64 [0xC4, 0xA2, 0x69, 0x0C, 0x0C, 0xA0] = .form (.var128 np 1 2 (.mem (.sib 0 (some ⟨12, 2⟩) .none))) ∧
    decode .mode64 [0xC4, 0xE2, 0x69, 0x0C, 0x8C, 0x24, 0x80, 0, 0, 0]
      = .form (.var128 np 1 2 (.mem (.sib 4 none (.d32 0x80)))) ∧
    decode .mode64 [0xC4, 0xC2, 0x69, 0x0C, 0x0C, 0x25, 0, 0x10, 0, 0]
      = .form (.var128 np 1 2 (.mem (.sibNoBase none 0x1000))) ∧
    decode .mode64 [0xC4, 0xC2, 0x69, 0x0C, 0x0D, 0x10, 0, 0, 0] = .form (.var128 np 1 2 (.mem (.ripRel 0x10))) ∧
    decode .mode64 [0x67, 0x64, 0xC4, 0xE2, 0x69, 0x0C, 0x08]
      = .form (.var128 ⟨some .fs, true⟩ 1 2 (.mem (atReg 0))) := by
  decide +kernel

/-- Section 2.2, form 2 (row RMI, 128 bits). -/
theorem test_decode_imm128 :
    decode .mode64 [0xC4, 0xE3, 0x79, 0x04, 0xCA, 0x1B] = .form (.imm128 np 1 (.reg 2) 0x1B) ∧
    decode .mode64 [0xC4, 0xE3, 0x79, 0x04, 0x2C, 0x25, 0, 0x10, 0, 0, 0xE4]
      = .form (.imm128 np 5 (.mem (.sibNoBase none 0x1000)) 0xE4) ∧
    decode .mode32 [0xC4, 0xE3, 0x79, 0x04, 0x0D, 0, 1, 0, 0, 0xFF]
      = .form (.imm128 np 1 (.mem (.abs32 0x100)) 0xFF) := by
  decide +kernel

/-- Section 2.2, form 3 (row RVM, 256 bits), among them the row read bit by bit. -/
theorem test_decode_var256 :
    decode .mode64 [0xC4, 0xE2, 0x6D, 0x0C, 0xCB] = .form (.var256 np 1 2 (.reg 3)) ∧
    decode .mode64 [0xC4, 0x62, 0x2D, 0x0C, 0x4C, 0x8B, 0x10]
      = .form (.var256 np 9 10 (.mem (.sib 3 (some ⟨1, 2⟩) (.d8 0x10)))) ∧
    decode .mode32 [0xC4, 0xE2, 0x45, 0x0C, 0x45, 0x00] = .form (.var256 np 0 7 (.mem (.base 5 (.d8 0)))) := by
  decide +kernel

/-- Section 2.2, form 4 (row RMI, 256 bits), among them the row read bit by bit. -/
theorem test_decode_imm256 :
    decode .mode64 [0xC4, 0xE3, 0x7D, 0x04, 0xCA, 0x1B] = .form (.imm256 np 1 (.reg 2) 0x1B) ∧
    decode .mode64 [0xC4, 0xC3, 0x7D, 0x04, 0xC7, 0x00] = .form (.imm256 np 0 (.reg 15) 0) ∧
    decode .mode64 [0xC4, 0x43, 0x7D, 0x04, 0x45, 0x00, 0x4E] = .form (.imm256 np 8 (.mem (.base 13 (.d8 0))) 0x4E) := by
  decide +kernel

/-- Section 2.3, verdict `UD`. -/
theorem test_decode_ud :
    decode .mode64 [0xC4, 0xE2, 0xE9, 0x0C, 0xCB] = .ud 5 ∧
    decode .mode64 [0xC4, 0xE3, 0x69, 0x04, 0xCA, 0x1B] = .ud 6 ∧
    decode .mode32 [0xC4, 0xE3, 0xE9, 0x04, 0xCA, 0x1B] = .ud 6 ∧
    decode .mode64 [0xF0, 0xC4, 0xE2, 0x69, 0x0C, 0x08] = .ud 6 ∧
    decode .mode64 [0x48, 0xC4, 0xE2, 0x69, 0x0C, 0xCB] = .ud 6 ∧
    decode .mode32 [0x67, 0xC4, 0xE2, 0xE9, 0x0C, 0x08] = .ud 6 := by
  decide +kernel

/-- Section 2.3, verdict `NotVPERMILPS`. -/
theorem test_decode_not :
    decode .mode64 [0xC5, 0xE8, 0x0C, 0xCB] = .notVpermilps ∧
    decode .mode64 [0xC4, 0xE1, 0x69, 0x0C, 0xCB] = .notVpermilps ∧
    decode .mode64 [0xC4, 0xE2, 0x68, 0x0C, 0xCB] = .notVpermilps ∧
    decode .mode64 [0xC4, 0xE2, 0x69, 0x0D, 0xCB] = .notVpermilps ∧
    decode .mode64 [0xC4, 0xE2, 0x69, 0x04, 0xCB] = .notVpermilps ∧
    decode .mode64 [0xC4, 0xE3, 0x69, 0x0C, 0xCB] = .notVpermilps ∧
    decode .mode32 [0xC4, 0x62, 0x69, 0x0C, 0xCB] = .notVpermilps ∧
    decode .mode32 [0x48, 0xC4, 0xE2, 0x69, 0x0C, 0xCB] = .notVpermilps ∧
    decode .mode64 [0x48, 0x90] = .notVpermilps ∧
    decode .mode64 [0x90] = .notVpermilps := by
  decide +kernel

/-- Section 2.3, the decoder's refusals beside the longest accepted encoding. -/
theorem test_decode_refused :
    decode .mode64 [0x64, 0x65, 0xC4, 0xE2, 0x69, 0x0C, 0x08] = .refuse .prefixForm 0 ∧
    decode .mode64 [0x67, 0x67, 0xC4, 0xE2, 0x69, 0x0C, 0x08] = .refuse .prefixForm 0 ∧
    decode .mode64 [0x48, 0x64, 0xC4, 0xE2, 0x69, 0x0C, 0x08] = .refuse .prefixForm 0 ∧
    decode .mode64 [0x48, 0x48, 0xC4, 0xE2, 0x69, 0x0C, 0xCB] = .refuse .prefixForm 0 ∧
    decode .mode32 [0xC4, 0xC2, 0x69, 0x0C, 0xCB] = .refuse .mode32HighBit 5 ∧
    decode .mode32 [0xC4, 0xE2, 0x29, 0x0C, 0xCB] = .refuse .mode32HighBit 5 ∧
    decode .mode32 [0x67, 0xC4, 0xE2, 0x69, 0x0C, 0x08] = .refuse .addrSize16 6 ∧
    decode .mode32 [0x67, 0xC4, 0xE2, 0x69, 0x0C, 0xCB] = .form (.var128 ⟨none, true⟩ 1 2 (.reg 3)) ∧
    decode .mode16 [0xC4, 0xE2, 0x69, 0x0C, 0xCB] = .refuse .mode16 0 ∧
    decode .mode64 [0x66, 0x66, 0x66, 0x66, 0xC4, 0xE3, 0x79, 0x04, 0x2C, 0x25, 0, 0x10, 0, 0, 0xE4] = .ud 15 ∧
    decode .mode64 [0x66, 0x66, 0x66, 0x66, 0x66, 0xC4, 0xE3, 0xF9, 0x04, 0x2C, 0x25, 0, 0x10, 0, 0, 0xE4]
      = .refuse .tooLong 16 ∧
    decode .mode64 [0x64, 0x67, 0xC4, 0xE3, 0x79, 0x04, 0x2C, 0x25, 0, 0x10, 0, 0, 0xE4]
      = .form (.imm128 ⟨some .fs, true⟩ 5 (.mem (.sibNoBase none 0x1000)) 0xE4) := by
  decide +kernel

/-! ### Well-formedness: an ill-formed term for each check -/

/-- A register number that the mode cannot name, in each place; `rsp` and `rbp` as a plain base; index 4; the forms of
the other mode; `Mode16`; the 16-bit address size. -/
theorem test_wf_refuses :
    (Instr.var128 np 8 2 (.reg 3)).wf .mode32 = false ∧
    (Instr.var128 np 1 8 (.reg 3)).wf .mode32 = false ∧
    (Instr.var128 np 1 2 (.reg 8)).wf .mode32 = false ∧
    (Instr.var128 np 1 2 (.mem (.base 8 .none))).wf .mode32 = false ∧
    (Instr.var128 np 1 2 (.mem (.base 4 .none))).wf .mode64 = false ∧
    (Instr.var128 np 1 2 (.mem (.base 13 .none))).wf .mode64 = false ∧
    (Instr.var128 np 1 2 (.mem (.sib 8 none .none))).wf .mode32 = false ∧
    (Instr.var128 np 1 2 (.mem (.sib 5 none .none))).wf .mode64 = false ∧
    (Instr.var128 np 1 2 (.mem (.sib 0 (some ⟨4, 0⟩) .none))).wf .mode64 = false ∧
    (Instr.var128 np 1 2 (.mem (.sib 0 (some ⟨9, 0⟩) .none))).wf .mode32 = false ∧
    (Instr.var128 np 1 2 (.mem (.sibNoBase (some ⟨4, 0⟩) 0))).wf .mode64 = false ∧
    (Instr.var128 np 1 2 (.mem (.ripRel 0))).wf .mode32 = false ∧
    (Instr.var128 np 1 2 (.mem (.abs32 0))).wf .mode64 = false ∧
    v128.wf .mode16 = false ∧
    (Instr.var128 ⟨none, true⟩ 1 2 (.mem (atReg 0))).wf .mode32 = false ∧
    (∀ i ∈ all8, i.wf .mode64 = true ∧ i.wf .mode32 = true) := by
  decide +kernel

/-! ### Execution: values from sections 2.5 to 2.10 -/

/-- Section 2.6, row 7: bits 31:2 of a control element are ignored; bits 255:128 become 0. -/
theorem test_var128_value :
    (nextOf (exec v128 (setV s64 3 (vec [0xFFFFFFFD, 0x100, 0xAAAAAAAA, 0x55555555, 9, 9, 9, 9])))).map (·.readV 1)
      = some (vec [0x40000000, 0x3F800000, 0x40400000, 0x40000000, 0, 0, 0, 0]) := by
  decide +kernel

/-- Section 2.7, row 1: source, control and destination are one register. -/
theorem test_var128_overlap :
    (nextOf (exec (.var128 np 0 0 (.reg 0)) (setV s64 0 (vec [3, 2, 1, 0, 7, 7, 7, 7])))).map (·.readV 0)
      = some (vec [0, 1, 2, 3, 0, 0, 0, 0]) := by
  decide +kernel

/-- Section 2.5, row `imm8 = 01`: field 0 drives element 0. -/
theorem test_imm128_field :
    (nextOf (exec (.imm128 np 1 (.reg 2) 0x01) s64)).map (·.readV 1)
      = some (vec [0x40000000, 0x3F800000, 0x3F800000, 0x3F800000, 0, 0, 0, 0]) := by
  decide +kernel

/-- Bytes 10H to 2FH at 3010H (section 2.10), and `rsi = a`. -/
def memState (a : Addr) : State :=
  setX { s64 with mem := bytesAt 0x3010 ((List.range 32).map fun k => BitVec.ofNat 8 (0x10 + k)) } 6 a

/-- Section 2.10, row 3: an odd address. -/
theorem test_imm128_memory :
    (nextOf (exec (.imm128 np 1 (.mem (atReg 6)) 0xE4) (memState 0x3011))).map (·.readV 1)
      = some (vec [0x14131211, 0x18171615, 0x1C1B1A19, 0x201F1E1D, 0, 0, 0, 0]) := by
  decide +kernel

/-- Section 2.6, last 256-bit row: element 7 is chosen by bits 225:224. -/
theorem test_var256_value :
    (nextOf (exec v256 (setV s64 3 (vec [0xFFFFFFFF, 0, 0xFFFFFFFE, 1, 0x80000002, 0x7FFFFFFD, 8, 0x13])))).map (·.readV 1)
      = some (vec [0x40800000, 0x3F800000, 0x40400000, 0x40000000,
                   0x40E00000, 0x40C00000, 0x40A00000, 0x41000000]) := by
  decide +kernel

/-- Section 3, P4, step 1: `vpermilps ymm0, ymm7, [ebp]` in `Mode32`, the control from `ss:[ebp]`. -/
theorem test_var256_memory32 :
    (nextOf (exec (.var256 np 0 7 (.mem (.base 5 (.d8 0))))
      { (setX (setV s32 7 f256) 5 0x500000) with
        mem := bytesAt 0x500000 [3, 0, 0, 0, 2, 0, 0, 0, 1, 0, 0, 0, 0, 0, 0, 0, 0xFC, 0xFF, 0xFF, 0xFF, 1, 1, 1, 1,
                                 2, 0, 0, 0x80, 7, 0, 0, 0] })).map (fun t => (t.readV 0, t.rip))
      = some (vec [0x40800000, 0x40400000, 0x40000000, 0x3F800000,
                   0x40A00000, 0x40C00000, 0x40E00000, 0x41000000], 0x401006) := by
  decide +kernel

/-- Section 2.5, 256-bit row `1B`: each lane is reversed, not the register. -/
theorem test_imm256_value :
    (nextOf (exec i256 s64)).map (·.readV 1)
      = some (vec [0x40800000, 0x40400000, 0x40000000, 0x3F800000,
                   0x41000000, 0x40E00000, 0x40C00000, 0x40A00000]) := by
  decide +kernel

/-- Section 2.10, row 2: 32 bytes at 3010H, imm8 = 4E. -/
theorem test_imm256_memory :
    (nextOf (exec (.imm256 np 1 (.mem (atReg 6)) 0x4E) (memState 0x3010))).map (·.readV 1)
      = some (vec [0x1B1A1918, 0x1F1E1D1C, 0x13121110, 0x17161514,
                   0x2B2A2928, 0x2F2E2D2C, 0x23222120, 0x27262524]) := by
  decide +kernel

/-- The match numeral of each row of the opcode table, all operand bits 0: the decoder's instruction has the row's form,
and the very next step after the launch runs it. -/
theorem test_withFetchWord :
    decodeTableWord 32 0xC402010C = some (.var128 np 8 15 (.mem (atReg 8))) ∧
    decodeTableWord 32 0xC4037904 = some (.imm128 np 8 (.mem (atReg 8)) 0) ∧
    decodeTableWord 32 0xC402050C = some (.var256 np 8 15 (.mem (atReg 8))) ∧
    decodeTableWord 32 0xC4037D04 = some (.imm256 np 8 (.mem (atReg 8)) 0) ∧
    (nextOf (step (State.reset.withFetchWord 32 0xC402010C))).map (·.rip) = some 0xFFF5 ∧
    (nextOf (step (State.reset.withFetchWord 32 0xC4037904))).map (·.rip) = some 0xFFF6 ∧
    (nextOf (step (State.reset.withFetchWord 32 0xC402050C))).map (·.rip) = some 0xFFF5 ∧
    (nextOf (step (State.reset.withFetchWord 32 0xC4037D04))).map (·.rip) = some 0xFFF6 := by
  decide +kernel

/-! ### Witnesses: the hypotheses of each obligation met together -/

/-- The conditions of `Admitted`, evaluated. -/
def admittedB (i : Instr) (s : State) : Bool :=
  (s.mode = .mode64 || s.mode = .mode32) && i.wf s.mode && !s.ripWraps i.ilen && !s.operandSpecial i

theorem admitted_of {i : Instr} {s : State} (h : admittedB i s = true) : Admitted i s := by
  simp only [admittedB, Bool.and_eq_true, Bool.or_eq_true, decide_eq_true_eq, Bool.not_eq_true'] at h
  exact ⟨h.1.1.1, h.1.1.2, h.1.2, h.2⟩

/-- The conditions of `Ready`, evaluated. -/
def readyB (i : Instr) (s : State) : Bool :=
  admittedB i s && (s.params.cpuidAvx && s.osxsave && s.xcr0Avx = 3#2) && (!s.ts && !s.em)

theorem ready_of {i : Instr} {s : State} (h : readyB i s = true) : Ready i s := by
  simp only [readyB, Bool.and_eq_true, decide_eq_true_eq, Bool.not_eq_true'] at h
  exact ⟨admitted_of h.1.1, ⟨h.1.2.1.1, h.1.2.1.2, h.1.2.2⟩, h.2⟩

/-- The conditions of `AddressOk`, evaluated. -/
def addressOkB (i : Instr) (m : MemForm) (s : State) : Bool :=
  if s.mode = .mode64 then
    (s.lin i m).toNat + i.width.bytes ≤ 2 ^ 64 &&
      (List.range i.width.bytes).all fun k => s.canonical (s.byteLinear (s.lin i m) k)
  else s.segCheck (s.seg i m) (s.ea i m) i.width.bytes

theorem addressOk_of {i : Instr} {m : MemForm} {s : State} (h : addressOkB i m s = true) : AddressOk i m s := by
  unfold addressOkB at h
  split at h
  · rename_i hm
    simp only [Bool.and_eq_true, decide_eq_true_eq, List.all_eq_true, List.mem_range] at h
    exact ⟨fun _ => h.1, fun _ => h.2, fun hn => absurd hm hn⟩
  · rename_i hm
    exact ⟨fun hn => absurd hn hm, fun hn => absurd hn hm, fun _ => h⟩

/-- The operand's bytes lie at rising physical addresses from `p` on. -/
def rising (p : Addr) (k : Nat) : Addr := p + BitVec.ofNat 64 k

theorem translates_of {i : Instr} {m : MemForm} {s : State} (p : Addr)
    (h : ((List.range i.width.bytes).all fun k =>
      s.translate (s.byteLinear (s.lin i m) k) .read = .phys (rising p k)) = true) : Translates i m s (rising p) := by
  simpa [Translates] using h

/-- The bytes at `rip` can be fetched and are these, evaluated. -/
def fetchesB (s : State) (bytes : List Byte) : Bool :=
  (List.range bytes.length).all fun k =>
    match s.fetchByte k with
    | .next c => bytes[k]? = some c
    | .fault _ => false
    | .refused _ => false

theorem fetches_of {s : State} {bytes : List Byte} (h : fetchesB s bytes = true) : Fetches s bytes := by
  intro k hk
  have hb := List.all_eq_true.mp h k (List.mem_range.mpr hk)
  rw [List.getElem?_eq_getElem hk] at hb
  cases hf : s.fetchByte k with
  | next c => simp only [hf, decide_eq_true_eq, Option.some.injEq] at hb; rw [hb]
  | fault f => simp [hf] at hb
  | refused r => simp [hf] at hb

/-- A ready instruction with a readable operand at 3000H and no other agent writing has a source. -/
theorem source_of {i : Instr} {m : MemForm} {s : State} (hm : i.rm = .mem m) (hb : s.batch = [])
    (ha : addressOkB i m s = true)
    (ht : ((List.range i.width.bytes).all fun k =>
      s.translate (s.byteLinear (s.lin i m) k) .read = .phys (rising 0x3000 k)) = true)
    (hal : s.alignEnabled = false) : ∃ src, SourceIs i s src := by
  refine ⟨joinBytes (operandBytes i s (rising 0x3000)), ?_⟩
  rw [SourceIs, hm]
  exact ⟨hb, _, ⟨addressOk_of ha, translates_of _ ht, .inl hal⟩, rfl⟩

/-- `rax = a` in the 64-bit state. -/
def at64 (a : Addr) : State := setX s64 0 a

/-- `eax = a` in the 32-bit state. -/
def at32 (a : Addr) : State := setX s32 0 a

/-- DecodeReadsBackEncode, PlacedInstructionRuns: well-formed terms of every form, operand kind and mode. -/
theorem wit_wf :
    (∀ i ∈ all8, i.wf .mode64 = true ∧ i.wf .mode32 = true ∧ i.wf .modeReal = true ∧ i.wf .modeV86 = true) ∧
    (Instr.var256 ⟨some .gs, true⟩ 15 15 (.mem (.sib 12 (some ⟨15, 3⟩) (.d32 0xFFFFFFFF)))).wf .mode64 = true ∧
    (Instr.imm256 np 15 (.mem (.ripRel 0xFFFFFFF0)) 0xFF).wf .mode64 = true ∧
    (Instr.imm128 np 7 (.mem (.abs32 0)) 0).wf .mode32 = true := by
  decide +kernel

/-- DecodedFormIsWellFormed, DecodeReadsOnlyIlenBytes: bytes with the longest form, and bytes that follow it. -/
theorem wit_decode_form :
    decode .mode64 [0x64, 0x67, 0xC4, 0xE3, 0x79, 0x04, 0x2C, 0x25, 0, 0x10, 0, 0, 0xE4, 0x90]
      = .form (.imm128 ⟨some .fs, true⟩ 5 (.mem (.sibNoBase none 0x1000)) 0xE4) := by
  decide +kernel

/-- VexWSetIsUd; lengths 15 and 16 with four and five bytes before 11. -/
theorem wit_fits :
    (∀ i ∈ all8, ∀ m ∈ [Mode.mode64, .mode32, .modeReal, .modeV86], i.fits m = true ∧ m ≠ .mode16) ∧
    (Instr.imm128 np 5 (.mem (.sibNoBase none 0x1000)) 0xE4).ilen = 11 ∧ ¬15 < 4 + 11 ∧ 15 < 5 + 11 := by
  decide +kernel

/-- VexWSetIsUd, second clause, and TwoByteVexIsNotVpermilps, first clause: an accepted byte sequence with two prefixes in
the other order, and the place of its `C4H`. -/
theorem wit_accepted_bytes :
    let i : Instr := .var128 ⟨some .fs, true⟩ 1 2 (.mem (atReg 0))
    decode .mode64 ([0x67, 0x64] ++ 0xC4 :: 0xE2 :: 0x69 :: [0x0C, 0x08]) = .form i ∧
      [0x67#8, 0x64#8].length = i.prefixes.len := by
  decide +kernel

/-- ReservedVvvvIsUd: both clauses; outside `Mode64` with the top bit 1. -/
theorem wit_reserved_vvvv :
    (i128.fits .mode64 = true ∧ i128.imm8.isSome = true ∧ (0#4 ≠ 15#4) ∧ (14#4 ≠ 15#4)) ∧
    (i256.fits .mode32 = true ∧ i256.imm8.isSome = true ∧ (8#4 ≠ 15#4) ∧ (8#4).getLsbD 3 = true) ∧
    (Instr.var128 np 1 0 (.reg 3)).wf .mode64 = true ∧ (Instr.var128 np 1 15 (.reg 3)).wf .mode64 = true := by
  decide +kernel

/-- ForbiddenByteIsUd: a forbidden byte before, between and after two prefixes; a REX byte. -/
theorem wit_forbidden :
    (let i : Instr := .var128 ⟨some .fs, true⟩ 1 2 (.mem (atReg 0))
     i.fits .mode64 = true ∧ i.prefixes.bytes = [] ++ [0x64, 0x67] ∧ i.prefixes.bytes = [0x64] ++ [0x67] ∧
       i.prefixes.bytes = [0x64, 0x67] ++ []) ∧
    v128.fits .mode64 = true ∧ (0x40#8).extractLsb' 4 4 = 4#4 ∧ (0x4F#8).extractLsb' 4 4 = 4#4 := by
  decide +kernel

/-- OtherOpcodeIsNotVpermilps: `C4 E2 69 04`, the opcode of the other map. -/
theorem wit_other_opcode :
    ¬((0xE2#8).extractLsb' 0 5 = 2#5 ∧ (0x69#8).extractLsb' 0 2 = 1#2 ∧ (0x04#8 = 0x0C#8)) ∧
    ¬((0xE2#8).extractLsb' 0 5 = 3#5 ∧ (0x69#8).extractLsb' 0 2 = 1#2 ∧ (0x04#8 = 0x04#8)) := by
  decide +kernel

/-- Mode32HighBits: `P1[7:6] = 01b`; a register operand 11; `vnum` 10; an immediate form with a stored `vvvv` of 0111b; and
two byte sequences without a base register that have `B̄ = 0`, one with SIB and one with a displacement only, the second
under two prefixes. -/
theorem wit_mode32_high :
    (0x62#8).extractLsb' 6 2 ≠ 3#2 ∧
    (let i : Instr := .var128 np 1 2 (.reg 11)
     i.fits .mode64 = true ∧ i.dst.hi = 0#1 ∧ i.rm.fields.x = 0#1 ∧ i.rm.fields.b = 1#1) ∧
    (let i : Instr := .var128 np 1 10 (.reg 3)
     i.fits .mode64 = true ∧ i.dst.hi = 0#1 ∧ i.rm.fields.x = 0#1 ∧ i.storedV.getLsbD 3 = false) ∧
    (i128.fits .mode64 = true ∧ i128.dst.hi = 0#1 ∧ i128.rm.fields.x = 0#1 ∧ (7#4).getLsbD 3 = false) ∧
    ((0xC2#8).extractLsb' 6 2 = 3#2 ∧ (0x69#8).extractLsb' 0 2 = 1#2 ∧ (0xC2#8).extractLsb' 0 5 = 2#5 ∧
      (0xC2#8).extractLsb' 5 1 = 0#1) ∧
    decode .mode32 [0xC4, 0xC2, 0x69, 0x0C, 0x0C, 0x25, 0, 0x10, 0, 0, 0x90] = .refuse .mode32HighBit 10 ∧
    decode .mode32 [0x64, 0x67, 0xC4, 0xC3, 0x79, 0x04, 0x0D, 0, 0x10, 0, 0, 0xE4, 0x90]
      = .refuse .mode32HighBit 12 := by
  decide +kernel

/-- SixteenBitFormsAreRefused: both clauses, each opcode map. -/
theorem wit_sixteen_bit :
    (let i : Instr := .var128 ⟨none, true⟩ 1 2 (.mem (atReg 0))
     i.fits .mode32 = true ∧ i.prefixes.addr67 = true ∧ i.rm.isMem = true) ∧
    (0xE2#8).extractLsb' 6 2 = 3#2 ∧ (0x69#8).extractLsb' 0 2 = 1#2 ∧ (0xE2#8).extractLsb' 0 5 = 2#5 ∧
    (0xE3#8).extractLsb' 6 2 = 3#2 ∧ (0xE3#8).extractLsb' 0 5 = 3#5 := by
  decide +kernel

/-- RepeatedPrefixIsRefused: the three clauses; REX before an override, `67H`, `66H` and REX. -/
theorem wit_repeated_prefix :
    (Prefixes.mk (some .fs) false).seg.isSome = true ∧ (Prefixes.mk none true).addr67 = true ∧
    (0x48#8).extractLsb' 4 4 = 4#4 ∧ isPrefix64 0x64#8 = true ∧ isPrefix64 0x67#8 = true ∧ isPrefix64 0x66#8 = true ∧
    isPrefix64 0x48#8 = true := by
  decide +kernel

/-- OverlongIsRefused: five forbidden bytes of all four kinds about the two prefixes of an instruction of 13 bytes, and one
before an instruction of 5. -/
theorem wit_overlong :
    (let i : Instr := .imm128 ⟨some .fs, true⟩ 5 (.mem (.sibNoBase none 0x1000)) 0xE4
     let pre : List Byte := [0xF3, 0x64, 0x66, 0xF2, 0x67, 0xF0, 0x66]
     i.fits .mode64 = true ∧ pre.filter (fun b => !isForbidden b) = i.prefixes.bytes ∧
       pre.length = i.prefixes.len + 5 ∧ 15 < 5 + i.ilen) ∧
    (v128.fits .modeReal = true ∧ [0xF2#8].filter (fun b => !isForbidden b) = v128.prefixes.bytes ∧
      [0xF2#8].length = v128.prefixes.len + 1 ∧ ¬15 < 1 + v128.ilen) := by
  decide +kernel

/-- The result statements, ElementsStayInTheirLane, FlagsReadOnlyVmAndAc and the like: every form is ready, with its
register operand and with `[rax]`, in `Mode64` and `Mode32`. -/
theorem wit_ready : ∀ i ∈ all8, Ready i (at64 0x3000) ∧ Ready i (at32 0x3000) := by
  have h : ∀ i ∈ all8, readyB i (at64 0x3000) = true ∧ readyB i (at32 0x3000) = true := by decide +kernel
  exact fun i hi => ⟨ready_of (h i hi).1, ready_of (h i hi).2⟩

/-- The register operand has its value, in any state. -/
theorem wit_source_reg (s : State) :
    SourceIs v128 s (s.readV 3) ∧ SourceIs i128 s (s.readV 2) ∧ SourceIs v256 s (s.readV 3) ∧
      SourceIs i256 s (s.readV 2) :=
  ⟨rfl, rfl, rfl, rfl⟩

/-- The memory operand at 3000H has a value, in `Mode64`. -/
theorem wit_source_mem64 :
    (∃ src, SourceIs v128m (at64 0x3000) src) ∧ (∃ src, SourceIs i128m (at64 0x3000) src) ∧
    (∃ src, SourceIs v256m (at64 0x3000) src) ∧ (∃ src, SourceIs i256m (at64 0x3000) src) := by
  refine ⟨source_of (m := atReg 0) rfl ?_ ?_ ?_ ?_, source_of (m := atReg 0) rfl ?_ ?_ ?_ ?_,
    source_of (m := atReg 0) rfl ?_ ?_ ?_ ?_, source_of (m := atReg 0) rfl ?_ ?_ ?_ ?_⟩ <;> decide +kernel

/-- And in `Mode32`. -/
theorem wit_source_mem32 :
    (∃ src, SourceIs v128m (at32 0x3000) src) ∧ (∃ src, SourceIs i128m (at32 0x3000) src) ∧
    (∃ src, SourceIs v256m (at32 0x3000) src) ∧ (∃ src, SourceIs i256m (at32 0x3000) src) := by
  refine ⟨source_of (m := atReg 0) rfl ?_ ?_ ?_ ?_, source_of (m := atReg 0) rfl ?_ ?_ ?_ ?_,
    source_of (m := atReg 0) rfl ?_ ?_ ?_ ?_, source_of (m := atReg 0) rfl ?_ ?_ ?_ ?_⟩ <;> decide +kernel

/-- IgnoredControlBits: the controls 0, 5, 6, 7 and 4, 1, 2, 3 agree in bits 1:0 and differ above. -/
theorem wit_ignored_bits :
    let s := setV s64 3 (vec [0, 5, 6, 7, 0, 0, 0, 0])
    let s' := setV s64 3 (vec [4, 1, 2, 3, 0, 0, 0, 0])
    Ready v128 s ∧ Ready v128 s' ∧ v128.vvvv = some 2 ∧ s.readV 2 = s'.readV 2 ∧ s.readV 3 ≠ s'.readV 3 ∧
      ∀ k < elemCount v128.width, (s.readV 3).extractLsb' (32 * k) 2 = (s'.readV 3).extractLsb' (32 * k) 2 :=
  ⟨ready_of (by decide +kernel), ready_of (by decide +kernel), rfl, by decide +kernel, by decide +kernel,
    by decide +kernel⟩

/-- ImmediateEqualsVariable: imm8 = 1B and the control 3, 2, 1, 0 in each lane. -/
theorem wit_immediate_variable :
    let s := setV s64 3 (vec [3, 2, 1, 0, 3, 2, 1, 0])
    Ready i128 s ∧ Ready v128 s ∧ Ready i256 s ∧ Ready v256 s ∧
      (∀ k < 8, elem (s.readV 3) k = ((0x1B#8).extractLsb' (2 * (k % 4)) 2).setWidth 32) :=
  ⟨ready_of (by decide +kernel), ready_of (by decide +kernel), ready_of (by decide +kernel),
    ready_of (by decide +kernel), by decide +kernel⟩

/-- DestinationWrittenWhole, FrameOfCompletion: every form completes, with a destination that is no source. -/
theorem wit_completes :
    ∀ i ∈ all8, (∃ t, exec i (at64 0x3000) = .next t) ∧ i.vvvv ≠ some i.dst ∧ i.rm ≠ .reg i.dst := by
  have h : ∀ i ∈ all8, (nextOf (exec i (at64 0x3000))).isSome = true ∧ i.vvvv ≠ some i.dst ∧ i.rm ≠ .reg i.dst := by
    decide +kernel
  exact fun i hi => ⟨next_of_isSome (h i hi).1, (h i hi).2⟩

/-- FrameOfStep, StepKeepsInvariant, StepRaisesRip, StepRunsDecodedInstruction: a launched state whose step completes. -/
theorem wit_step :
    let s := State.reset.place (encode v128)
    (∃ t, step s = .next t) ∧ decode s.mode (encode v128) = .form v128 ∧ Fetches s (encode v128) ∧ LQuiet s ∧
      TextUnwritten s ∧ s.mode = .mode64 ∧ Inv s :=
  ⟨next_of_isSome (by decide +kernel), by decide +kernel, fetches_of (by decide +kernel), ⟨rfl, by decide +kernel⟩,
    by unfold TextUnwritten; decide +kernel, by decide +kernel, ⟨by decide +kernel, by decide +kernel⟩⟩

/-- StepKeepsInvariant, StepRaisesRip: the same outside `Mode64`. -/
theorem wit_step32 :
    let s := { s32 with mem := bytesAt 0x401000 (encode v128) }
    (∃ t, step s = .next t) ∧ s.mode ≠ .mode64 ∧ Inv s :=
  ⟨next_of_isSome (by decide +kernel), by decide +kernel, ⟨by decide +kernel, by decide +kernel⟩⟩

/-- RipAdvancesByIlen: the last `rip` that completes and the first that is refused (10_state.md R17, section 2.3). -/
theorem wit_rip :
    (∃ t, exec v128 { s64 with rip := 0xFFFFFFFFFFFFFFFA } = .next t) ∧
    (∃ t, exec v128 { s64 with rip := 0x7FFFFFFFFFFB } = .next t) ∧
    (∃ t, exec v128 { s32 with rip := 0xFFFFFFFA } = .next t) ∧
    2 ^ 64 ≤ (0xFFFFFFFFFFFFFFFB#64).toNat + v128.ilen ∧
    ({ s64 with rip := 0x7FFFFFFFFFFC } : State).canonical (0x7FFFFFFFFFFC#64 + BitVec.ofNat 64 4) = false ∧
    4 < v128.ilen ∧ s64.mode = .mode64 ∧ s32.mode = .mode32 ∧
    2 ^ 32 ≤ (0xFFFFFFFB#64).toNat % 2 ^ 32 + v128.ilen :=
  ⟨next_of_isSome (by decide +kernel), next_of_isSome (by decide +kernel), next_of_isSome (by decide +kernel),
    by decide +kernel, by decide +kernel, by decide +kernel, by decide +kernel, by decide +kernel, by decide +kernel⟩

/-- FlagsReadOnlyVmAndAc: all six status flags set beside the state's own. -/
theorem wit_flags :
    (0x8D7#64).getLsbD 17 = s64.rflags.getLsbD 17 ∧ (0x8D7#64).getLsbD 18 = s64.rflags.getLsbD 18 := by
  decide +kernel

/-- SameAtEveryPrivilege: a register operand. -/
theorem wit_privilege : v128.rm = .reg 3 ∧ i256.rm = .reg 2 := ⟨rfl, rfl⟩

/-- UdInRealAndV86: reset, and protected mode with `VM = 1`. -/
theorem wit_real_v86 :
    State.reset.mode = .modeReal ∧ ({ s64 with rflags := 0x20002 } : State).mode = .modeV86 ∧
    (∀ i ∈ all8, i.fits .modeReal = true ∧ i.fits .modeV86 = true) := by
  decide +kernel

/-- UdUnlessStateEnabled: `OSXSAVE = 0`; `XCR0[2:1] = 01b`; with `EM` and `TS` set as well. -/
theorem wit_state_disabled :
    (let s := { at64 0x3000 with cr4 := 0 }
     Admitted v128m s ∧ s.osxsave = false) ∧
    (let s := { at64 0x3000 with xcr0 := 3, cr0 := 0x8000000D#64 }
     Admitted v128m s ∧ s.xcr0Avx ≠ 3#2 ∧ s.em = true ∧ s.ts = true) :=
  ⟨⟨admitted_of (by decide +kernel), by decide +kernel⟩, admitted_of (by decide +kernel), by decide +kernel,
    by decide +kernel, by decide +kernel⟩

/-- UdWithoutAvxFlag. -/
theorem wit_no_avx :
    let s := { s64 with params := { s64.params with cpuidAvx := false } }
    Admitted v128 s ∧ s.params.cpuidAvx = false :=
  ⟨admitted_of (by decide +kernel), rfl⟩

/-- NmWhenTaskSwitched: `TS = 1`, the operand not canonical. -/
theorem wit_nm :
    let s := { at64 0x800000000000 with cr0 := 0x80000009#64 }
    Admitted v128m s ∧ LAvxEnabled s ∧ s.em = false ∧ s.ts = true :=
  ⟨admitted_of (by decide +kernel), ⟨rfl, by decide +kernel, by decide +kernel⟩, by decide +kernel, by decide +kernel⟩

/-- EmulationBitIsRefused: `EM = 1` and `TS = 1`. -/
theorem wit_em :
    let s := { s64 with cr0 := 0x8000000D#64 }
    Admitted v128 s ∧ LAvxEnabled s ∧ s.em = true :=
  ⟨admitted_of (by decide +kernel), ⟨rfl, by decide +kernel, by decide +kernel⟩, by decide +kernel⟩

/-- VerdictDecidesStep: for each verdict bytes at `rip` in a state the premises hold of (35 bytes before `NotVPERMILPS`, so
past the 15 of any instruction); and the two verdicts with a length where the instruction runs off the address space. -/
theorem wit_verdict :
    (∀ c ∈ ([([0xC4, 0xE2, 0xE9, 0x0C, 0xCB], .ud 5), ([0x48, 0x48], .refuse .prefixForm 0),
        (List.replicate 12 0x66 ++ [0xC4, 0xE2, 0x69, 0x0C, 0xCB], .refuse .tooLong 17),
        (List.replicate 35 0x66 ++ [0x90], .notVpermilps)] : List (List Byte × Verdict)),
      let s := State.reset.place c.1
      LQuiet s ∧ TextUnwritten s ∧ Fetches s c.1 ∧ decode s.mode c.1 = c.2 ∧ s.ripWraps 5 = false) ∧
    (∀ c ∈ ([([0xC4, 0xE2, 0xE9, 0x0C, 0xCB], .ud 5), ([0xC4, 0xE2, 0x69, 0x0C, 0xCB], .form v128)]
        : List (List Byte × Verdict)),
      let s := { s64 with rip := 0xFFFFFFFFFFFFFFFB, mem := bytesAt 0xFFFFFFFFFFFFFFFB c.1 }
      LQuiet s ∧ TextUnwritten s ∧ Fetches s c.1 ∧ decode s.mode c.1 = c.2 ∧ s.ripWraps 5 = true) := by
  constructor
  · intro c hc
    simp only [List.mem_cons, List.not_mem_nil, or_false] at hc
    rcases hc with rfl | rfl | rfl | rfl <;>
      exact ⟨⟨rfl, by decide +kernel⟩, by unfold TextUnwritten; decide +kernel, fetches_of (by decide +kernel),
        by decide +kernel, by decide +kernel⟩
  · intro c hc
    simp only [List.mem_cons, List.not_mem_nil, or_false] at hc
    rcases hc with rfl | rfl <;>
      exact ⟨⟨rfl, by decide +kernel⟩, by unfold TextUnwritten; decide +kernel, fetches_of (by decide +kernel),
        by decide +kernel, by decide +kernel⟩

/-- VerdictDecidesStep in `Mode32`: a high bit and the 16-bit address size; and in `Mode16`. -/
theorem wit_verdict32 :
    (∀ c ∈ ([([0xC4, 0xC2, 0x69, 0x0C, 0xCB], .refuse .mode32HighBit 5),
        ([0x67, 0xC4, 0xE2, 0x69, 0x0C, 0x08], .refuse .addrSize16 6)] : List (List Byte × Verdict)),
      let s := { s32 with mem := bytesAt 0x401000 c.1 }
      LQuiet s ∧ TextUnwritten s ∧ Fetches s c.1 ∧ decode s.mode c.1 = c.2 ∧ s.ripWraps 6 = false) ∧
    (let s := { s32 with csD := false, mem := bytesAt 0x401000 (encode v128) }
     LQuiet s ∧ TextUnwritten s ∧ Fetches s (encode v128) ∧ decode s.mode (encode v128) = .refuse .mode16 0) := by
  constructor
  · intro c hc
    simp only [List.mem_cons, List.not_mem_nil, or_false] at hc
    rcases hc with rfl | rfl <;>
      exact ⟨⟨rfl, by decide +kernel⟩, by unfold TextUnwritten; decide +kernel, fetches_of (by decide +kernel),
        by decide +kernel, by decide +kernel⟩
  · exact ⟨⟨rfl, by decide +kernel⟩, by unfold TextUnwritten; decide +kernel, fetches_of (by decide +kernel),
      by decide +kernel⟩

/-- CanonicalOperandCheck (section 2.11): `rax` one past the last operand that fits, `#GP(0)`; `[rbp+0]`, `#SS(0)`; the wrap
just past `FFFF_FFFF_FFFF_FFF0`; and the two last operands that are read. -/
theorem wit_canonical :
    (let s := at64 0x7FFFFFFFFFF1
     Ready v128m s ∧ s.mode = .mode64 ∧ (s.lin v128m (atReg 0)).toNat + 16 ≤ 2 ^ 64 ∧
       s.canonical (s.byteLinear (s.lin v128m (atReg 0)) 15) = false) ∧
    (let s := setX s64 5 0x800000000000
     let m : MemForm := .base 5 (.d8 0)
     let i : Instr := .var256 np 0 7 (.mem m)
     Ready i s ∧ s.seg i m = .ss ∧ s.canonical (s.byteLinear (s.lin i m) 0) = false) ∧
    (let s := at64 0xFFFFFFFFFFFFFFF1
     Ready v128m s ∧ 2 ^ 64 < (s.lin v128m (atReg 0)).toNat + 16) ∧
    (∃ t, exec v128m (at64 0x7FFFFFFFFFF0) = .next t) ∧ (∃ t, exec v128m (at64 0xFFFFFFFFFFFFFFF0) = .next t) :=
  ⟨⟨ready_of (by decide +kernel), by decide +kernel, by decide +kernel, by decide +kernel⟩,
    ⟨ready_of (by decide +kernel), by decide +kernel, by decide +kernel⟩,
    ⟨ready_of (by decide +kernel), by decide +kernel⟩, next_of_isSome (by decide +kernel),
    next_of_isSome (by decide +kernel)⟩

/-- SegmentCheckFault (section 2.11): flat DS at `FFFF_FFF8H`; flat SS at `ebp = FFFF_FFF0H`; and the last offset that
passes. -/
theorem wit_segment :
    (let s := at32 0xFFFFFFF8
     Ready v128m s ∧ s.mode = .mode32 ∧ s.segCheck (s.seg v128m (atReg 0)) (s.ea v128m (atReg 0)) 16 = false) ∧
    (let s := setX s32 5 0xFFFFFFF0
     let m : MemForm := .base 5 (.d8 0)
     let i : Instr := .var256 np 0 7 (.mem m)
     Ready i s ∧ s.seg i m = .ss ∧ s.segCheck (s.seg i m) (s.ea i m) 32 = false) ∧
    (∃ t, exec v128m (at32 0xFFFFFFF0) = .next t) :=
  ⟨⟨ready_of (by decide +kernel), by decide +kernel, by decide +kernel⟩,
    ⟨ready_of (by decide +kernel), by decide +kernel, by decide +kernel⟩, next_of_isSome (by decide +kernel)⟩

/-- Page 4 (addresses 4000H to 4FFFH) faults for reads at CPL 0 with code 4. -/
def page4 : PageRange := { kind := .read, cpl := 0, first := 4, last := 4, answer := .fault 4 }

/-- PageFaultOfOperand (section 2.11, row `rax = 3FF8H`): byte 8 faults, byte 0 does not; and both pages fault. -/
theorem wit_page_fault :
    (let s := { at64 0x3FF8 with paging := { ranges := [page4], elsewhere := none } }
     Ready v128m s ∧ AddressOk v128m (atReg 0) s ∧
       s.translate (s.byteLinear (s.lin v128m (atReg 0)) 8) .read = .pageFault 4 ∧
       faultOf (exec v128m s) = some (.pf 4 0x4000)) ∧
    (let s := { at64 0x3FF8 with paging := { ranges := [page4], elsewhere := some 5 } }
     Ready v128m s ∧ AddressOk v128m (atReg 0) s ∧
       s.translate (s.byteLinear (s.lin v128m (atReg 0)) 0) .read = .pageFault 5 ∧
       s.translate (s.byteLinear (s.lin v128m (atReg 0)) 15) .read = .pageFault 4) :=
  ⟨⟨ready_of (by decide +kernel), addressOk_of (by decide +kernel), by decide +kernel, by decide +kernel⟩,
    ready_of (by decide +kernel), addressOk_of (by decide +kernel), by decide +kernel, by decide +kernel⟩

/-- Alignment checking enabled (`AM`, `AC`, `CPL = 3`) under a policy, `rax = a`. -/
def checked (p : AcPolicy) (a : Addr) : State :=
  { at64 a with cr0 := 0x80040001#64, rflags := 0x40002, cpl := 3, params := { s64.params with acPolicy := p } }

/-- AlignmentCheckPolicy (section 2.11): 3004H under each policy, 3010H aligned to 16 but not to 32, `CPL = 0`. -/
theorem wit_align :
    (∀ p : AcPolicy, (checked p 0x3004).alignEnabled = true ∧
      ((checked p 0x3004).lin v128m (atReg 0)).toNat % 16 ≠ 0 ∧
      ((checked p 0x3010).lin v128m (atReg 0)).toNat % 16 = 0 ∧
      ((checked p 0x3010).lin v256m (atReg 0)).toNat % 32 ≠ 0 ∧
      Ready v128m (checked p 0x3004) ∧ Ready v256m (checked p 0x3010) ∧
      AddressOk v128m (atReg 0) (checked p 0x3004) ∧ AddressOk v256m (atReg 0) (checked p 0x3010) ∧
      Translates v128m (atReg 0) (checked p 0x3004) (rising 0x3004) ∧
      Translates v256m (atReg 0) (checked p 0x3010) (rising 0x3010)) ∧
    ({ checked .always 0x3004 with cpl := 0 } : State).alignEnabled = false := by
  refine ⟨fun p => ?_, by decide +kernel⟩
  cases p <;>
    exact ⟨by decide +kernel, by decide +kernel, by decide +kernel, by decide +kernel, ready_of (by decide +kernel),
      ready_of (by decide +kernel), addressOk_of (by decide +kernel), addressOk_of (by decide +kernel),
      translates_of _ (by decide +kernel), translates_of _ (by decide +kernel)⟩

/-- NonIdempotentIsRefused: the operand's last byte in a device window, the enabling state off. -/
theorem wit_non_idempotent :
    let s := { at64 0x3000 with special := [⟨0x300F, 0x3FFF⟩], cr4 := 0 }
    LMode s ∧ v128m.wf s.mode = true ∧ s.ripWraps v128m.ilen = false ∧ AddressOk v128m (atReg 0) s ∧
      s.translate (s.byteLinear (s.lin v128m (atReg 0)) 15) .read = .phys 0x300F ∧ s.isSpecial 0x300F = true :=
  ⟨.inl (by decide +kernel), by decide +kernel, by decide +kernel, addressOk_of (by decide +kernel), by decide +kernel,
    by decide +kernel⟩

/-- DebugIsRefused: each cause alone. -/
theorem wit_debug :
    ({ s64 with breakpointArmed := true } : State).breakpointArmed = true ∧
    ({ s64 with rflags := 0x102 } : State).rflags.getLsbD 8 = true := by
  decide +kernel

/-- TextWriteIsRefused: the last byte of a five-byte text, written in the second batch. -/
theorem wit_text :
    let w : EnvWrite := { addr := 0x400004, val := 0 }
    let s := { s64 with textBase := 0x400000, textEnd := 0x400005, env := [[], [w]] }
    LQuiet s ∧ [w] ∈ s.env ∧ w ∈ [w] ∧ 4 < s.textEnd.toNat - s.textBase.toNat ∧
      s.translate (s.codeLinear (s.textBase + BitVec.ofNat 64 4)) .fetch = .phys w.addr :=
  ⟨⟨rfl, by decide +kernel⟩, by decide +kernel, by decide +kernel, by decide +kernel, by decide +kernel⟩

/-- TornReadSeesSomeMoment: another agent writes two of the operand's bytes during the step. -/
theorem wit_torn :
    let s := { at64 0x3000 with env := [[⟨0x3000, 1⟩, ⟨0x3004, 2⟩]] }
    Ready v128m s ∧ Readable v128m (atReg 0) s (rising 0x3000) ∧ s.batch.length = 2 :=
  ⟨ready_of (by decide +kernel),
    ⟨addressOk_of (by decide +kernel), translates_of _ (by decide +kernel), .inl (by decide +kernel)⟩,
    by decide +kernel⟩

/-- Code page 401H is not present: fetches at 40_1000H and above fault with code 16. -/
def codeEnd : State :=
  { s64 with rip := 0x400FFE, mem := bytesAt 0x400FFE [0xC4, 0xE2],
             paging := { ranges := [⟨.fetch, 0, 0x401, 0x401, .fault 0x10⟩], elsewhere := none } }

/-- FetchFaultEndsStep: the page ends after the second byte of an instruction; and, with the second page present, the
segment does in `Mode32`; and the address space does. -/
theorem wit_fetch_fault :
    (LQuiet codeEnd ∧ TextUnwritten codeEnd ∧ Fetches codeEnd [0xC4, 0xE2] ∧ decode codeEnd.mode [0xC4, 0xE2] = .short ∧
      codeEnd.fetchByte 2 = .fault (.pf 0x10 0x401000) ∧ codeEnd.rip.toNat + 2 < 2 ^ 64 ∧
      codeEnd.canonical (codeEnd.rip + 2) = true ∧
      codeEnd.translate (codeEnd.codeLinear (codeEnd.ip + 2)) .fetch = .pageFault 0x10) ∧
    (let s := { s32 with mem := bytesAt 0x401000 [0xC4, 0xE2], cs := { SegReg.reset with limit := 0x401001 } }
     LQuiet s ∧ TextUnwritten s ∧ Fetches s [0xC4, 0xE2] ∧ decode s.mode [0xC4, 0xE2] = .short ∧ s.mode = .mode32 ∧
       s.cs.limit.toNat < s.rip.toNat % 2 ^ 32 + 2) ∧
    (let s := { s64 with rip := 0xFFFFFFFFFFFFFFFE, mem := bytesAt 0xFFFFFFFFFFFFFFFE [0xC4, 0xE2] }
     LQuiet s ∧ TextUnwritten s ∧ Fetches s [0xC4, 0xE2] ∧ decode s.mode [0xC4, 0xE2] = .short ∧
       s.fetchByte 2 = .refused .ripWrap) :=
  ⟨⟨⟨rfl, by decide +kernel⟩, by unfold TextUnwritten; decide +kernel, fetches_of (by decide +kernel), by decide +kernel,
      by rfl, by decide +kernel, by decide +kernel, by decide +kernel⟩,
    ⟨⟨rfl, by decide +kernel⟩, by unfold TextUnwritten; decide +kernel, fetches_of (by decide +kernel), by decide +kernel,
      by decide +kernel, by decide +kernel⟩,
    ⟨rfl, by decide +kernel⟩, by unfold TextUnwritten; decide +kernel, fetches_of (by decide +kernel), by decide +kernel,
    by rfl⟩

/-- SegmentChoice, TranslationOffIsIdentity: a state in `Mode64`, one outside it with paging off. -/
theorem wit_modes : s64.mode = .mode64 ∧ s32.mode ≠ .mode64 ∧ s32.cr0.getLsbD 31 = false := by
  decide +kernel

/-- LittleEndianOperand: 32 bytes, and one. -/
theorem wit_little_endian : (List.replicate 32 (0xA5#8)).length ≤ 32 ∧ [0xA5#8].length ≤ 32 := by
  decide +kernel

/-- CanonicalMemoryIsUnique: one memory built by writes in two orders. -/
theorem wit_memory :
    let m : Memory := Memory.write (Memory.write [] 5 1) 3 2
    let m' : Memory := Memory.write (Memory.write (Memory.write [] 3 2) 4 0) 5 1
    m.wf ∧ m'.wf ∧ m = [(3, 2), (5, 1)] ∧ m' = m := by
  decide +kernel

/-- ResetControlState: every form fits real mode. -/
theorem wit_reset : ∀ i ∈ all8, i.fits .modeReal = true := by decide +kernel

/-- InitFetchAddress: INIT may leave the state that RESET leaves. -/
theorem wit_init : InitLeaves State.reset State.reset :=
  ⟨rfl, rfl, rfl, by decide +kernel, by decide +kernel, by decide +kernel⟩

/-- Two instructions, one with a register and one with a memory operand at 3000H. -/
def twoInstrs : Program := [(v128, encode v128), (i256m, encode i256m)]

/-- Launched with them as the text, at FFF0H in `Mode64`. -/
def run64 : State := setX (State.reset.load twoInstrs.bytes) 0 0x3000

/-- And at 40_1000H in `Mode32`. -/
def run32 : State :=
  { at32 0x3000 with mem := bytesAt 0x401000 twoInstrs.bytes, textBase := 0x401000, textEnd := 0x40100B }

/-- The conditions of `Launched` for the two instructions, evaluated. -/
def launchedB (s : State) : Bool :=
  (s.mode = .mode64 || s.mode = .mode32) && (s.params.cpuidAvx && s.osxsave && s.xcr0Avx = 3#2) && (!s.ts && !s.em) &&
    (fetchesB (s.setRip s.textBase) twoInstrs.bytes && s.special.isEmpty &&
      s.textEnd.toNat = s.textBase.toNat + 11 && s.textEnd.toNat < 2 ^ 32 && !s.textWritten) &&
    (!s.operandSpecial v128 && !(s.setRip (s.nextIp 5)).operandSpecial i256m) &&
    (!s.breakpointArmed && !s.tf) && s.rip = s.textBase &&
    (decode s.mode (encode v128) = .form v128 && decode s.mode (encode i256m) = .form i256m)

theorem launched_of {s : State} (h : launchedB s = true) : Launched twoInstrs s := by
  simp only [launchedB, Bool.and_eq_true, Bool.or_eq_true, decide_eq_true_eq, Bool.not_eq_true',
    List.isEmpty_iff] at h
  obtain ⟨⟨⟨⟨⟨⟨⟨hm, ⟨ha, hx⟩, hc⟩, ht, he⟩, ⟨⟨⟨⟨hf, hsp⟩, hend⟩, hspace⟩, hw⟩⟩, ho1, ho2⟩, hq⟩, hr⟩, hd1, hd2⟩ := h
  refine ⟨hm, ⟨ha, hx, hc⟩, ⟨ht, he⟩, ⟨?_, fetches_of hf, ?_, hend, fun _ => hspace, hw⟩, ⟨ho1, ho2, trivial⟩, hq, hr⟩
  · intro c hc
    simp only [twoInstrs, List.mem_cons, List.not_mem_nil, or_false] at hc
    rcases hc with rfl | rfl
    · exact ⟨hd1, rfl⟩
    · exact ⟨hd2, rfl⟩
  · intro a _
    simp [State.isSpecial, hsp]

/-- The memory operand of the second instruction can be read. -/
theorem operandsReadable_of {s : State} (ha : addressOkB i256m (atReg 0) (s.setRip (s.nextIp 5)) = true)
    (ht : ((List.range 32).all fun k => (s.setRip (s.nextIp 5)).translate ((s.setRip (s.nextIp 5)).byteLinear
      ((s.setRip (s.nextIp 5)).lin i256m (atReg 0)) k) .read = .phys (rising 0x3000 k)) = true)
    (hal : s.alignEnabled = false) : OperandsReadable twoInstrs s := by
  refine ⟨fun m hm => by simp [v128, Instr.rm] at hm, fun m hm => ?_, trivial⟩
  have he : atReg 0 = m := by simpa [i256m, Instr.rm] using hm
  subst he
  exact ⟨_, addressOk_of ha, translates_of _ ht, .inl hal⟩

/-- ProgramRunsToEnd: a launch state of two instructions in `Mode64` and one in `Mode32`. -/
theorem wit_program :
    (Inv run64 ∧ Launched twoInstrs run64 ∧ OperandsReadable twoInstrs run64 ∧ run64.mode = .mode64) ∧
    (Inv run32 ∧ Launched twoInstrs run32 ∧ OperandsReadable twoInstrs run32 ∧ run32.mode = .mode32) :=
  ⟨⟨⟨by decide +kernel, by decide +kernel⟩, launched_of (by decide +kernel),
      operandsReadable_of (by decide +kernel) (by decide +kernel) (by decide +kernel), by decide +kernel⟩,
    ⟨by decide +kernel, by decide +kernel⟩, launched_of (by decide +kernel),
    operandsReadable_of (by decide +kernel) (by decide +kernel) (by decide +kernel), by decide +kernel⟩

theorem runEnds_one {s : State} (h0 : s.rip ≠ s.textEnd)
    (h : (nextOf (step s)).map (fun t => decide (t.rip = t.textEnd)) = some true) : ∃ t, RunEnds 1 s t := by
  obtain ⟨t, ht⟩ := next_of_isSome (o := step s) (by rw [← Option.isSome_map, h]; rfl)
  rw [ht] at h
  exact ⟨t, h0, t, ht, rfl, by simpa [nextOf] using h⟩

/-- RunLengthBounded: a run of one step in `Mode64`, and one in `Mode32` from a state that meets the invariant. -/
theorem wit_run :
    (let s := State.reset.load (encode v128)
     s.mode = .mode64 ∧ ∃ t, RunEnds 1 s t) ∧
    (let s := { s32 with mem := bytesAt 0x401000 (encode v128), textBase := 0x401000, textEnd := 0x401005 }
     s.mode = .mode32 ∧ Inv s ∧ ∃ t, RunEnds 1 s t) :=
  ⟨⟨by decide +kernel, runEnds_one (by decide +kernel) (by decide +kernel)⟩, by decide +kernel,
    ⟨by decide +kernel, by decide +kernel⟩, runEnds_one (by decide +kernel) (by decide +kernel)⟩

end Sys2Proof.Tests
end

section
/-! SUPPORT. What a completed execution and a completed step leave in each piece of state (spec 10_state.md R17, R28,
20_memory.md R49): the mode they completed in, the registers but operand 1, and where `rip` ends. -/

namespace Sys2Proof.Machine

/-! ### The instruction pointer and `RipWrap` (R17) -/

theorem State.ip_of_mode64 {s : State} (h : s.mode = .mode64) : s.ip = s.rip := by
  rw [State.ip, if_pos h]

theorem State.ip_toNat_of_not_mode64 {s : State} (h : s.mode ≠ .mode64) : s.ip.toNat = s.rip.toNat % 2 ^ 32 := by
  rw [State.ip, if_neg h, BitVec.toNat_setWidth, BitVec.toNat_setWidth]
  omega

theorem State.ripWraps_mode64 {s : State} {len : Nat} (h : s.mode = .mode64) :
    s.ripWraps len = true ↔
      2 ^ 64 ≤ s.rip.toNat + len ∨ ∃ k < len, s.canonical (s.rip + BitVec.ofNat 64 k) = false := by
  simp [State.ripWraps, h, State.ip_of_mode64 h]

theorem State.ripWraps_mode32 {s : State} {len : Nat} (h : s.mode = .mode32) :
    s.ripWraps len = true ↔ 2 ^ 32 ≤ s.rip.toNat % 2 ^ 32 + len := by
  have hm : s.mode ≠ .mode64 := by simp [h]
  rw [← State.ip_toNat_of_not_mode64 hm]
  simp [State.ripWraps, h]

/-- An instruction that runs off the address space is refused before every other check (R17, R113 step 1). -/
theorem exec_of_ripWraps {i : Instr} {s : State} (h : s.ripWraps i.ilen = true) : exec i s = .refused .ripWrap := by
  have hg : s.gate i = .refused .ripWrap := by simp [State.gate, State.refusal, h]
  rw [exec_eq_runForm, runForm, hg, Out.andThen_refused]

/-! ### What an execution that completes leaves -/

theorem State.complete_readV_of_ne (s : State) (i : Instr) (r : Vec) {n : RegNum} (h : n ≠ i.dst) :
    (s.complete i r).readV n = s.readV n := by
  rw [State.complete_eq_after, State.readV_setRip, State.readV_writeV_other _ _ _ _ h]

/-- An execution that completes makes the two changes of R28 and no others. -/
theorem exec_eq_complete {i : Instr} {s t : State} (h : exec i s = .next t) : ∃ r, t = s.complete i r := by
  obtain ⟨-, src, -, ht⟩ := exec_eq_next h
  exact ⟨_, ht⟩

/-- An instruction does not run off the address space where it completes (R17). -/
theorem ripWraps_of_exec {i : Instr} {s t : State} (h : exec i s = .next t) : s.ripWraps i.ilen = false :=
  (State.gate_eq_next (exec_eq_next h).1).1

/-- An instruction completes in `Mode64` and `Mode32` only (R73, R103). -/
theorem mode_of_exec {i : Instr} {s t : State} (h : exec i s = .next t) : LMode s := by
  obtain ⟨-, h16, -, -, he⟩ := State.gate_eq_next (exec_eq_next h).1
  obtain ⟨hreal, hv86⟩ := enabled_mode he
  cases hm : s.mode <;> simp_all [LMode]

/-- Where an instruction completes, its end lies below the end of the mode's address space (R17). -/
theorem ip_bound_of_exec {i : Instr} {s t : State} (h : exec i s = .next t) :
    s.ip.toNat + i.ilen < 2 ^ 64 ∧ (s.mode ≠ .mode64 → s.ip.toNat + i.ilen < 2 ^ 32) := by
  have hw := ripWraps_of_exec h
  rcases mode_of_exec h with hm | hm
  · have hb : ¬ (2 ^ 64 ≤ s.rip.toNat + i.ilen) := fun hc => by
      simp [(State.ripWraps_mode64 hm).mpr (.inl hc)] at hw
    rw [State.ip_of_mode64 hm]
    exact ⟨by omega, fun hne => absurd hm hne⟩
  · have hne : s.mode ≠ .mode64 := by simp [hm]
    have hb : ¬ (2 ^ 32 ≤ s.rip.toNat % 2 ^ 32 + i.ilen) := fun hc => by
      simp [(State.ripWraps_mode32 hm).mpr hc] at hw
    rw [State.ip_toNat_of_not_mode64 hne]
    exact ⟨by omega, fun _ => by omega⟩

/-- A completed instruction leaves `rip` exactly `ILEN` above the instruction pointer (R17). -/
theorem exec_rip_toNat {i : Instr} {s t : State} (h : exec i s = .next t) : t.rip.toNat = s.ip.toNat + i.ilen := by
  obtain ⟨r, rfl⟩ := exec_eq_complete h
  exact State.nextIp_toNat (ip_bound_of_exec h).1

/-! ### What a step that completes leaves -/

/-- A step that completes runs an instruction that fetched bytes decode to, and then lets the batch land. -/
theorem step_runs_instruction {s t : State} (h : step s = .next t) :
    ∃ i bytes u, Fetches s bytes ∧ decode s.mode bytes = .form i ∧ exec i s = .next u ∧ t = u.envAdvance := by
  obtain ⟨-, i, u, hd, hu, ht⟩ := step_eq_next h
  obtain ⟨bytes, hf, hb, -⟩ := State.fetchDecode_eq_next (Fetches.nil s) hd
  exact ⟨i, bytes, u, hf, hb, hu, ht⟩

/-- A step that completes makes an instruction's two changes and then lets the batch land (R28, R49). -/
theorem step_eq_complete {s t : State} (h : step s = .next t) :
    ∃ i r, exec i s = .next (s.complete i r) ∧ t = (s.complete i r).envAdvance := by
  obtain ⟨i, -, u, -, -, hu, rfl⟩ := step_runs_instruction h
  obtain ⟨r, rfl⟩ := exec_eq_complete hu
  exact ⟨i, r, hu, rfl⟩

end Sys2Proof.Machine
end

section
/-! SUPPORT. The invariant, and what a step does to the text bounds, the mode and `rip` (spec 10_state.md R17,
20_memory.md R35, R49). -/

namespace Sys2Proof.Machine

/-- Settles O58: the batch that lands keeps memory canonical, and outside `Mode64` the end of a completed instruction lies
below `2^32` (R17). -/
theorem stepKeepsInvariant : Obligations.StepKeepsInvariant := by
  intro s t hinv hstep
  obtain ⟨i, r, hexec, rfl⟩ := step_eq_complete hstep
  have hrip := exec_rip_toNat hexec
  refine ⟨Memory.applyWrites_wf hinv.mem _, fun hm => ?_⟩
  have hbound := (ip_bound_of_exec hexec).2 hm
  rw [State.envAdvance_rip]
  omega

/-- Settles O59: no byte is listed at reset, and `rip` is FFF0H. -/
theorem resetMeetsInvariant : Obligations.ResetMeetsInvariant :=
  ⟨State.reset_mem_wf, fun _ => by decide⟩

/-- Settles O56: `rip` rises by `ILEN`, which is 5 to 13 (R74). -/
theorem stepRaisesRip : Obligations.StepRaisesRip := by
  intro s t hinv hstep
  obtain ⟨i, r, hexec, rfl⟩ := step_eq_complete hstep
  obtain ⟨hmin, hmax⟩ := Instr.ilen_bounds i
  have hrip := exec_rip_toNat hexec
  rw [State.ip_eq_rip hinv.ip] at hrip
  refine ⟨rfl, rfl, rfl, ?_, ?_⟩ <;> rw [State.envAdvance_rip] <;> omega

end Sys2Proof.Machine
end

section
/-! SUPPORT. The frames of an execution and of a step, and the advance of `rip` (spec 10_state.md R17, R28, 20_memory.md
R49). -/

namespace Sys2Proof.Machine

/-- Settles O24: the destination is the only register written, and every other field but `rip` is a field of the state
before. -/
theorem frameOfCompletion : Obligations.FrameOfCompletion := by
  intro i s t h
  obtain ⟨r, rfl⟩ := exec_eq_complete h
  exact ⟨fun n hn => s.complete_readV_of_ne i r hn, by simp⟩

/-- Settles O25: the instruction's two changes, and then the batch of the other agents. -/
theorem frameOfStep : Obligations.FrameOfStep := by
  intro s t h
  obtain ⟨i, bytes, u, hf, hd, hu, rfl⟩ := step_runs_instruction h
  obtain ⟨r, rfl⟩ := exec_eq_complete hu
  have hbatch : (s.complete i r).batch = s.batch := rfl
  refine ⟨i, bytes, hf, hd, fun n hn => ?_, by simp [hbatch]⟩
  rw [State.readV_envAdvance, s.complete_readV_of_ne i r hn]

/-- Settles O26: the advance from `exec_rip_toNat`, the refusals from `exec_of_ripWraps`. -/
theorem ripAdvancesByIlen : Obligations.RipAdvancesByIlen := by
  refine ⟨fun i s t h => ⟨fun hm => ⟨?_, fun k hk => ?_⟩, fun hm => ?_⟩, fun i s hm hw => ?_, fun i s hm hw => ?_⟩
  · rw [exec_rip_toNat h, State.ip_of_mode64 hm]
  · by_contra hc
    have hwraps := (State.ripWraps_mode64 hm).mpr (.inr ⟨k, hk, by simpa using hc⟩)
    simp [ripWraps_of_exec h] at hwraps
  · have hbound := (ip_bound_of_exec h).2 hm
    rw [exec_rip_toNat h]
    exact ⟨by rw [State.ip_toNat_of_not_mode64 hm], hbound⟩
  · exact exec_of_ripWraps ((State.ripWraps_mode64 hm).mpr hw)
  · exact exec_of_ripWraps ((State.ripWraps_mode32 hm).mpr hw)

end Sys2Proof.Machine
end

section
/-! SUPPORT. An execution reads RFLAGS through VM and AC alone and MXCSR not at all (spec 10_state.md R20, R21): every
operation that `exec` is made of answers the same in a state with other values of the two registers. -/

namespace Sys2Proof.Machine

/-- The state with other values of the two status registers, RFLAGS and MXCSR. -/
def State.withStatus (s : State) (f : BitVec 64) (c : BitVec 32) : State := { s with rflags := f, mxcsr := c }

section
variable {s : State} {f : BitVec 64} {c : BitVec 32}

/-! ### The two readers of RFLAGS -/

theorem State.mode_withStatus (hvm : f.getLsbD 17 = s.vm) : (s.withStatus f c).mode = s.mode := by
  have h : (s.withStatus f c).vm = s.vm := hvm
  rw [State.mode, State.mode, h]
  rfl

theorem State.alignEnabled_withStatus (hac : f.getLsbD 18 = s.ac) :
    (s.withStatus f c).alignEnabled = s.alignEnabled := by
  have h : (s.withStatus f c).ac = s.ac := hac
  rw [State.alignEnabled, State.alignEnabled, h]
  rfl

/-! ### What depends on the mode and on fields other than the two -/

section
variable (hm : (s.withStatus f c).mode = s.mode)
include hm

theorem State.ip_withStatus : (s.withStatus f c).ip = s.ip := by
  rw [State.ip, hm]
  rfl

theorem State.nextIp_withStatus (len : Nat) : (s.withStatus f c).nextIp len = s.nextIp len := by
  rw [State.nextIp, State.ip_withStatus hm]
  rfl

theorem State.complete_withStatus (i : Instr) (r : Vec) :
    (s.withStatus f c).complete i r = (s.complete i r).withStatus f c := by
  rw [State.complete, State.nextIp_withStatus hm]
  rfl

theorem State.ripWraps_withStatus (len : Nat) : (s.withStatus f c).ripWraps len = s.ripWraps len := by
  rw [State.ripWraps, hm, State.ip_withStatus hm]
  rfl

theorem enabled_withStatus : enabled (s.withStatus f c) = enabled s := by
  rw [enabled, hm]
  rfl

theorem State.ea_withStatus (i : Instr) (m : MemForm) : (s.withStatus f c).ea i m = s.ea i m := by
  have ha : (s.withStatus f c).addrSize64 i.prefixes = s.addrSize64 i.prefixes := by
    rw [State.addrSize64, hm]
    rfl
  rw [State.ea, State.ea, State.effAddr.eq_def, ha, State.nextIp_withStatus hm]
  rfl

theorem State.seg_withStatus (i : Instr) (m : MemForm) : (s.withStatus f c).seg i m = s.seg i m := by
  rw [State.seg, State.operandSeg, hm]
  rfl

theorem State.segBase_withStatus (g : Seg) : (s.withStatus f c).segBase g = s.segBase g := by
  rw [State.segBase.eq_def, hm]
  rfl

theorem State.linear_withStatus (g : Seg) (ea : Addr) : (s.withStatus f c).linear g ea = s.linear g ea := by
  rw [State.linear, hm, State.segBase_withStatus hm]
  rfl

theorem State.lin_withStatus (i : Instr) (m : MemForm) : (s.withStatus f c).lin i m = s.lin i m := by
  rw [State.lin, State.seg_withStatus hm, State.ea_withStatus hm, State.linear_withStatus hm]
  rfl

theorem State.byteLinear_withStatus (lin : Addr) : (s.withStatus f c).byteLinear lin = s.byteLinear lin := by
  funext k
  rw [State.byteLinear, hm]
  rfl

theorem State.checkAddress_withStatus (g : Seg) (ea : Addr) (n : Nat) :
    (s.withStatus f c).checkAddress g ea n = s.checkAddress g ea n := by
  rw [State.checkAddress, hm, State.linear_withStatus hm, State.byteLinear_withStatus hm]
  rfl

theorem State.physFrom_withStatus (lin : Addr) (n k : Nat) :
    (s.withStatus f c).physFrom lin n k = s.physFrom lin n k := by
  induction n generalizing k with
  | zero => rfl
  | succ n ih =>
    rw [State.physFrom, State.physFrom, State.byteLinear_withStatus hm, ih]
    rfl

theorem State.pageFault_withStatus (lin : Addr) (n : Nat) (first : Addr × BitVec 6) :
    (s.withStatus f c).pageFault lin n first = s.pageFault lin n first := by
  have hb : (s.withStatus f c).byteFault lin = s.byteFault lin := by
    funext k
    rw [State.byteFault, State.byteLinear_withStatus hm]
    rfl
  have hc : (s.withStatus f c).faultChoices lin n = s.faultChoices lin n := by
    rw [State.faultChoices, State.byteLinear_withStatus hm, hb]
    rfl
  rw [State.pageFault, hc]
  rfl

theorem State.operandSpecial_withStatus (i : Instr) :
    (s.withStatus f c).operandSpecial i = s.operandSpecial i := by
  cases hr : i.rm with
  | reg r => simp only [State.operandSpecial, hr]
  | mem m =>
    simp only [State.operandSpecial, hr, State.checkAddress_withStatus hm, State.seg_withStatus hm,
      State.ea_withStatus hm, State.lin_withStatus hm, State.byteLinear_withStatus hm]
    rfl

theorem State.gate_withStatus (i : Instr) : (s.withStatus f c).gate i = s.gate i := by
  have hr : (s.withStatus f c).refusal i = s.refusal i := by
    rw [State.refusal, hm, State.ripWraps_withStatus hm, State.operandSpecial_withStatus hm]
    rfl
  rw [State.gate, hr, enabled_withStatus hm]
  rfl

end

/-! ### The operand -/

theorem State.alignCheck_withStatus (ha : (s.withStatus f c).alignEnabled = s.alignEnabled) (lin : Addr) (n : Nat) :
    (s.withStatus f c).alignCheck lin n = s.alignCheck lin n := by
  rw [State.alignCheck, ha]
  rfl

theorem State.seenBytes_withStatus (k : Nat) (ps : List Addr) :
    (s.withStatus f c).seenBytes k ps = s.seenBytes k ps := by
  induction ps generalizing k with
  | nil => rfl
  | cons p ps ih =>
    rw [State.seenBytes, ih]
    rfl

theorem State.readMemory_withStatus (hm : (s.withStatus f c).mode = s.mode)
    (ha : (s.withStatus f c).alignEnabled = s.alignEnabled) (g : Seg) (ea : Addr) (n : Nat) :
    (s.withStatus f c).readMemory g ea n = s.readMemory g ea n := by
  simp only [State.readMemory, State.checkAddress_withStatus hm, State.linear_withStatus hm,
    State.physFrom_withStatus hm, State.pageFault_withStatus hm, State.alignCheck_withStatus ha,
    State.seenBytes_withStatus]

theorem State.readRm_withStatus (hm : (s.withStatus f c).mode = s.mode)
    (ha : (s.withStatus f c).alignEnabled = s.alignEnabled) (i : Instr) :
    (s.withStatus f c).readRm i = s.readRm i := by
  cases hr : i.rm with
  | reg r =>
    simp only [State.readRm, hr]
    rfl
  | mem m =>
    simp only [State.readRm, hr, State.seg_withStatus hm, State.ea_withStatus hm,
      State.readMemory_withStatus hm ha]

/-! ### The execution -/

theorem resultOf_withStatus (i : Instr) (src : Vec) : resultOf i (s.withStatus f c) src = resultOf i s src := by
  cases i <;> rfl

/-- With any other MXCSR and any other RFLAGS that agrees in VM and AC the outcome is the same but for the two. -/
theorem exec_withStatus (hvm : f.getLsbD 17 = s.vm) (hac : f.getLsbD 18 = s.ac) (i : Instr) :
    exec i (s.withStatus f c) = Out.andThen (exec i s) fun t => .next (t.withStatus f c) := by
  have hm := State.mode_withStatus (c := c) hvm
  have ha := State.alignEnabled_withStatus (c := c) hac
  rw [exec_eq_runForm, exec_eq_runForm, runForm, runForm, State.gate_withStatus hm, State.readRm_withStatus hm ha]
  cases s.gate i with
  | next _ =>
    cases s.readRm i with
    | next src => simp [State.complete_withStatus hm, resultOf_withStatus]
    | fault e => rfl
    | refused r => rfl
  | fault e => rfl
  | refused r => rfl

end

theorem exec_rflags {i : Instr} {s t : State} (h : exec i s = .next t) : t.rflags = s.rflags := by
  obtain ⟨r, rfl⟩ := exec_eq_complete h
  exact s.complete_rflags i r

theorem exec_mxcsr {i : Instr} {s t : State} (h : exec i s = .next t) : t.mxcsr = s.mxcsr := by
  obtain ⟨r, rfl⟩ := exec_eq_complete h
  exact s.complete_mxcsr i r

/-- Two continuations that agree on the value a first part answers give one outcome. -/
theorem Out.andThen_congr {α β : Type} {o : Out α} {k l : α → Out β} (h : ∀ a, o = .next a → k a = l a) :
    o.andThen k = o.andThen l := by
  cases o with
  | next a => exact h a rfl
  | fault e => rfl
  | refused r => rfl

/-- Settles O27: `exec_withStatus` with MXCSR as it is, which an execution leaves. -/
theorem flagsReadOnlyVmAndAc : Obligations.FlagsReadOnlyVmAndAc := by
  intro i s f hvm hac
  refine ⟨fun t h => exec_rflags h, (exec_withStatus (c := s.mxcsr) hvm hac i).trans (Out.andThen_congr fun t h => ?_)⟩
  rw [State.withStatus, ← exec_mxcsr h]

/-- Settles O28: `exec_withStatus` with RFLAGS as it is, which an execution leaves. -/
theorem mxcsrPlaysNoPart : Obligations.MxcsrPlaysNoPart := by
  intro i s c
  refine ⟨fun t h => exec_mxcsr h, (exec_withStatus (f := s.rflags) rfl rfl i).trans (Out.andThen_congr fun t h => ?_)⟩
  rw [State.withStatus, ← exec_rflags h]

end Sys2Proof.Machine
end

section
/-! SUPPORT. The machine after RESET and INIT (spec 10_state.md R30 to R34). -/

namespace Sys2Proof.Machine

/-- In `ModeReal` every instruction that fits it raises `#UD`, whatever else the state holds (R103). -/
theorem exec_modeReal {i : Instr} {s : State} (hm : s.mode = .modeReal) (hf : i.fits .modeReal = true) :
    exec i s = .fault .ud := by
  have hr : s.refusal i = none := by simp [State.refusal, State.ripWraps, Instr.addr16, hm, hf]
  have he : enabled s = .fault .ud := by simp [enabled, hm]
  rw [exec_eq_runForm, runForm, State.gate, hr]
  simp only [he, Out.andThen_fault]

theorem State.reset_mode : State.reset.mode = .modeReal := by decide

/-- Settles O50: the control state is read off, and in `ModeReal` every instruction that fits raises `#UD`. -/
theorem resetControlState : Obligations.ResetControlState := by
  refine ⟨?_, ?_, ?_, ?_, ?_, ?_, ?_, ?_, ?_, ?_, ?_, ?_, ?_, ?_, ?_, ?_, State.reset_mode,
    fun i hf => exec_modeReal State.reset_mode hf⟩ <;> decide

theorem State.reset_readV (n : RegNum) : State.reset.readV n = 0 := by simp [State.readV, State.reset]

theorem State.reset_readX (n : RegNum) : State.reset.readX n = 0 := by simp [State.readX, State.reset]

theorem State.reset_limit (g : Seg) : (State.reset.segReg g).limit = 0xFFFF#32 := by cases g <;> rfl

/-- Every segment register but CS is `SegReg.reset` after RESET (R34). -/
theorem State.reset_segReg {g : Seg} (h : g ≠ .cs) : State.reset.segReg g = SegReg.reset := by
  cases g with
  | cs => exact absurd rfl h
  | es | ss | ds | fs | gs => rfl

/-- Outside `Mode64`, `rip` FFF0H and the CS base of RESET and INIT give the address FFFF_FFF0H (R31, R38). -/
theorem State.codeLinear_of_start {s : State} (hm : s.mode ≠ .mode64) (hr : s.rip = 0xFFF0#64)
    (hb : s.cs.base = 0xFFFF0000#64) : s.codeLinear s.ip = 0xFFFFFFF0#64 := by
  simp [State.codeLinear, State.segBase, State.segReg, State.ip, hm, hr, hb]

/-- Settles O51: registers and segments are read off, and the first code byte lies at FFFF_FFF0H. -/
theorem resetRegisters : Obligations.ResetRegisters := by
  have hm : State.reset.mode ≠ .mode64 := by simp [State.reset_mode]
  exact ⟨State.reset_readV, rfl, State.codeLinear_of_start hm rfl rfl, fun n _ => State.reset_readX n, rfl, rfl,
    State.reset_limit, fun g hg => by rw [State.reset_segReg hg]; exact ⟨rfl, rfl⟩, by decide, by decide⟩

/-- Outside `Mode64` a byte at an offset within the code limit is fetched where the oracle answers (R38, R41, R112). -/
theorem State.fetchByte_zero_of_phys {s : State} {p : Addr} (hm : s.mode ≠ .mode64)
    (hl : s.ip.toNat ≤ s.cs.limit.toNat) (ht : s.translate (s.codeLinear s.ip) .fetch = .phys p) :
    s.fetchByte 0 = .next (s.mem.read p.toNat) := by
  have hwrap : ¬ (2 ^ 32 ≤ s.ip.toNat) := Nat.not_le.mpr (lt_of_le_of_lt hl s.cs.limit.isLt)
  have hlimit : ¬ (s.cs.limit.toNat < s.ip.toNat) := Nat.not_lt.mpr hl
  simp only [Nat.reducePow] at hwrap
  simp [State.fetchByte, hm, hwrap, hlimit, ht]

/-- Settles O54: INIT leaves `rip` and the CS base of RESET, and a state that fetches through them. -/
theorem initFetchAddress : Obligations.InitFetchAddress := by
  rintro s t ⟨hv, hr, hb, hm, hl, hp⟩
  have hip : t.ip.toNat = 0xFFF0 := by rw [State.ip_toNat_of_not_mode64 hm, hr]; rfl
  refine ⟨fun n => ?_, State.codeLinear_of_start hm hr hb, State.fetchByte_zero_of_phys hm (hip ▸ hl) hp⟩
  rw [State.readV, State.readV, hv]

end Sys2Proof.Machine
end

section
/-! SUPPORT. The memory operand of a ready instruction (spec 20_memory.md R37, R40, R44 to R47, 60_exceptions.md R113
steps 6 to 8): an execution is the read of its operand, and each check of the read has one lemma for each of its answers. -/

namespace Sys2Proof.Machine

/-! ### Execution as the read of the operand -/

/-- A ready instruction with a memory operand reads it, and completes with the value read (R86). -/
theorem exec_eq_readMemory {i : Instr} {m : MemForm} {s : State} (h : Ready i s) (hm : i.rm = .mem m) :
    exec i s = (s.readMemory (s.seg i m) (s.ea i m) i.width.bytes).andThen fun src =>
      .next (After i s (resultOf i s src)) := by
  rw [exec_eq_runForm, runForm, h.gate, Out.andThen_next, State.readRm, hm]
  rfl

/-- A ready instruction whose operand passes the address checks and translates: what is left is the alignment check. -/
theorem exec_of_translates {i : Instr} {m : MemForm} {s : State} {phys : Nat → Addr} (h : Ready i s)
    (hm : i.rm = .mem m) (ha : AddressOk i m s) (ht : Translates i m s phys) :
    exec i s = (s.alignCheck (s.lin i m) i.width.bytes).andThen fun _ =>
      .next (After i s (resultOf i s (joinBytes (s.seenBytes 0 ((List.range i.width.bytes).map phys))))) := by
  have hp := State.physFrom_eq_ok (s := s) (lin := s.lin i m) (phys := phys) i.width.bytes 0
    fun j _ hj => ht j (by omega)
  rw [exec_eq_readMemory h hm, State.readMemory, ha.check, Out.andThen_next, ← State.lin, hp, List.range_eq_range']
  cases s.alignCheck (s.lin i m) i.width.bytes <;> rfl

/-! ### Canonical addresses (R40) -/

/-- A field is all zeros or all ones, as `b` says, when each of its bits is `b`. -/
theorem field_eq_fill_iff {w : Nat} (x : BitVec w) (k n : Nat) (b : Bool) :
    x.extractLsb' k n = BitVec.fill n b ↔ ∀ j, k ≤ j → j < k + n → x.getLsbD j = b := by
  constructor
  · intro h j hk hj
    have hb := congrArg (fun y : BitVec n => y.getLsbD (j - k)) h
    simpa [show j - k < n by omega, Nat.add_sub_cancel' hk] using hb
  · intro h
    ext j hj
    simpa using h (k + j) (by omega) (by omega)

/-- `State.canonical` on the field of bits `63:LINBITS-1`: it is all zeros or all ones. -/
theorem State.canonical_iff_fill (s : State) (a : Addr) :
    s.canonical a = true ↔ ∃ b, a.extractLsb' (s.params.linBits.width - 1) (65 - s.params.linBits.width)
      = BitVec.fill (65 - s.params.linBits.width) b := by
  have hlt : a.toNat / 2 ^ (s.params.linBits.width - 1) < 2 ^ (65 - s.params.linBits.width) := by
    cases s.params.linBits <;> simp only [LinBits.width] <;> omega
  simp [State.canonical, ← BitVec.toNat_inj, Nat.shiftRight_eq_div_pow, Nat.mod_eq_of_lt hlt]

/-- An address is canonical when its bits `63:LINBITS-1` all equal the highest of them (R40). -/
theorem State.canonical_iff_bits (s : State) (a : Addr) : s.canonical a = true ↔
    ∀ j, s.params.linBits.width - 1 ≤ j → j < 64 → a.getLsbD j = a.getLsbD 63 := by
  have hend : s.params.linBits.width - 1 + (65 - s.params.linBits.width) = 64 ∧ s.params.linBits.width - 1 ≤ 63 := by
    cases s.params.linBits <;> decide
  simp only [State.canonical_iff_fill, field_eq_fill_iff, hend.1]
  constructor
  · rintro ⟨b, h⟩ j hk hj
    rw [h j hk hj, h 63 hend.2 (by decide)]
  · exact fun h => ⟨_, h⟩

/-! ### The address check in `Mode64` (R40, R113 step 6) -/

theorem State.checkAddress_of_wraps {s : State} {g : Seg} {ea : Addr} {n : Nat} (hm : s.mode = .mode64)
    (hw : 2 ^ 64 < (s.linear g ea).toNat + n) : s.checkAddress g ea n = .refused .addressWrap := by
  rw [State.checkAddress, if_pos hm, if_pos hw]

theorem State.checkAddress_of_not_canonical {s : State} {g : Seg} {ea : Addr} {n k : Nat} (hm : s.mode = .mode64)
    (hw : (s.linear g ea).toNat + n ≤ 2 ^ 64) (hk : k < n)
    (hc : s.canonical (s.byteLinear (s.linear g ea) k) = false) : s.checkAddress g ea n = .fault (segFault g) := by
  have hall : ¬ ((List.range n).all fun k => s.canonical (s.byteLinear (s.linear g ea) k)) = true := fun h => by
    have hk' := List.all_eq_true.mp h k (List.mem_range.mpr hk)
    simp [hc] at hk'
  rw [State.checkAddress, if_pos hm, if_neg (Nat.not_lt.mpr hw), if_neg hall, raise_eq]

/-! ### Page faults (R45, R110) -/

/-- An operand with a faulting byte has no list of physical addresses. -/
theorem State.physFrom_eq_error {s : State} {lin : Addr} {c : BitVec 6} {n j k : Nat} (hk : k ≤ j) (hj : j < k + n)
    (hf : s.translate (s.byteLinear lin j) .read = .pageFault c) : ∃ first, s.physFrom lin n k = .error first := by
  induction n generalizing k with
  | zero => omega
  | succ n ih =>
    rw [State.physFrom]
    cases ht : s.translate (s.byteLinear lin k) .read with
    | pageFault d => exact ⟨_, rfl⟩
    | phys p =>
      have hne : k ≠ j := fun e => by simp [e, hf] at ht
      obtain ⟨first, he⟩ := ih (k := k + 1) (by omega) (by omega)
      exact ⟨first, by simp only [he]; rfl⟩

/-- The page fault raised is one of the choices, whatever the draw. -/
theorem State.pageFault_eq_faultAt {s : State} {lin : Addr} {n : Nat} (h : s.faultChoices lin n ≠ [])
    (first : Addr × BitVec 6) : ∃ x ∈ s.faultChoices lin n, s.pageFault lin n first = faultAt x := by
  rw [State.pageFault]
  cases hc : s.faultChoices lin n with
  | nil => exact absurd hc h
  | cons x xs =>
    cases xs with
    | nil => exact ⟨x, by simp, rfl⟩
    | cons y ys =>
      have hlt : Config.pageFaultDraw s.tick % (x :: y :: ys).length < (x :: y :: ys).length :=
        Nat.mod_lt _ (by simp)
      exact ⟨_, List.getElem_mem hlt, by simp only [List.getD_eq_getElem _ _ hlt]⟩

/-! ### The alignment check where it finds something (R44, R111) -/

theorem State.alignEnabled_iff (s : State) :
    s.alignEnabled = true ↔ s.cr0.getLsbD 18 = true ∧ s.rflags.getLsbD 18 = true ∧ s.cpl = 3#2 := by
  simp [State.alignEnabled, State.am, State.ac, and_assoc]

section
variable {s : State} {lin : Addr} {n : Nat} (he : s.alignEnabled = true) (hn : lin.toNat % n ≠ 0)
include he hn

theorem State.alignCheck_of_always (hp : s.params.acPolicy = .always) : s.alignCheck lin n = .fault (.ac 0) := by
  simp [State.alignCheck, he, hn, hp]

/-- Under `MayFault` the free value decides between the two outcomes. -/
theorem State.alignCheck_of_mayFault (hp : s.params.acPolicy = .mayFault) :
    s.alignCheck lin n = .fault (.ac 0) ∨ s.alignCheck lin n = .next () := by
  cases hd : Config.alignDraw s.tick <;> simp [State.alignCheck, he, hn, hp, hd]

end

/-! ### The bytes observed while other agents write (R46) -/

/-- How many of the batch's writes operand byte `k` observes: the free value, cut to the batch's length. -/
def State.tearCut (s : State) (k : Nat) : Nat := Config.tearDraw s.tick k % (s.batch.length + 1)

theorem State.tearCut_le (s : State) (k : Nat) : s.tearCut k ≤ s.batch.length :=
  Nat.le_of_lt_succ (Nat.mod_lt _ (Nat.succ_pos _))

theorem State.seenByte_eq_read (s : State) (k : Nat) (p : Addr) :
    s.seenByte k p = (s.mem.applyWrites (s.batch.take (s.tearCut k))).read p.toNat := by
  rw [State.seenByte, State.tearCut]
  cases s.batch with
  | nil => rw [List.take_nil]; rfl
  | cons w ws => rfl

theorem State.seenBytes_map_range' (s : State) (phys : Nat → Addr) (n k : Nat) :
    s.seenBytes k ((List.range' k n).map phys) = (List.range' k n).map fun j => s.seenByte j (phys j) := by
  induction n generalizing k with
  | zero => rfl
  | succ n ih => rw [List.range'_succ, List.map_cons, List.map_cons, State.seenBytes, ih]

/-! ### Memory that is not ordinary (R47) -/

theorem State.operandSpecial_of_byte {i : Instr} {m : MemForm} {s : State} {k : Nat} {p : Addr} (hm : i.rm = .mem m)
    (ha : AddressOk i m s) (hk : k < i.width.bytes)
    (ht : s.translate (s.byteLinear (s.lin i m) k) .read = .phys p) (hp : s.isSpecial p = true) :
    s.operandSpecial i = true := by
  simp only [State.operandSpecial, hm, ha.check]
  exact List.any_eq_true.mpr ⟨k, List.mem_range.mpr hk, by simp only [ht, hp]⟩

/-- The failed premise refuses the instruction before the enabling state is looked at (R113). -/
theorem exec_of_operandSpecial {i : Instr} {s : State} (hm : LMode s) (hw : i.wf s.mode = true)
    (hip : s.ripWraps i.ilen = false) (ho : s.operandSpecial i = true) :
    exec i s = .refused .nonIdempotentMemory := by
  simp only [Instr.wf, Bool.and_eq_true, Bool.not_eq_true', decide_eq_true_eq] at hw
  obtain ⟨⟨hfits, h16⟩, haddr⟩ := hw
  have hmode : (s.mode = .mode64 || s.mode = .mode32) = true := by simpa [LMode] using hm
  have hr : s.refusal i = some .nonIdempotentMemory := by simp [State.refusal, hip, h16, hfits, haddr, hmode, ho]
  rw [exec_eq_runForm, runForm, State.gate, hr]
  rfl

/-! ### The order of the bytes (R37) -/

/-- Bits `8k+7:8k` of the joined value, wherever a vector has them: byte `k`, and 0 where there is none. -/
theorem joinBytes_field (bs : List Byte) (k : Nat) (hk : k < 32) :
    (joinBytes bs).extractLsb' (8 * k) 8 = bs.getD k 0#8 := by
  induction bs generalizing k with
  | nil => simp [joinBytes]
  | cons b bs ih =>
    cases k with
    | zero =>
      ext j hj
      simp [joinBytes, show j < 256 by omega, hj]
    | succ k =>
      rw [List.getD_cons_succ, ← ih k (by omega)]
      ext j hj
      have hbyte : b.getLsbD (8 * (k + 1) + j) = false := BitVec.getLsbD_of_ge _ _ (by omega)
      have hshift : 8 * (k + 1) + j - 8 = 8 * k + j := by omega
      have hlt : 8 * (k + 1) + j < 256 := by omega
      have hge : ¬ (8 * (k + 1) + j < 8) := by omega
      simp only [joinBytes, BitVec.getElem_extractLsb', BitVec.getLsbD_or, BitVec.getLsbD_shiftLeft,
        BitVec.getLsbD_setWidth, hbyte, hshift, hlt, hge, decide_true, decide_false, Bool.not_false, Bool.true_and,
        Bool.and_false, Bool.or_false]

/-- A vector has no byte 32. -/
theorem Vec.field_of_ge (v : Vec) (k : Nat) (hk : 32 ≤ k) : v.extractLsb' (8 * k) 8 = 0#8 := by
  ext j hj
  simp [BitVec.getLsbD_of_ge v (8 * k + j) (by omega)]

end Sys2Proof.Machine
end

section
/-! SUPPORT. The memory operand: its segment and its address, translation, the checks of the read, and the bytes read
(spec 20_memory.md R37 to R47). -/

namespace Sys2Proof.Machine

/-- Settles O46: the default segment by the base register, and the override by the mode. -/
theorem segmentChoice : Obligations.SegmentChoice := by
  refine ⟨fun r i d => ?_, fun _ _ => ⟨rfl, rfl, rfl⟩, fun _ _ _ => rfl, fun s a g m hm => ?_, fun s a g m hm => ?_⟩
  · simp [defaultSeg, baseIsStack]
  · simp [State.operandSeg, hm]
  · simp [State.operandSeg, hm]

/-- Settles O47: `CR0.PG` is bit 31 of CR0. -/
theorem translationOffIsIdentity : Obligations.TranslationOffIsIdentity := by
  intro s lin kind h
  have hpg : s.pg = false := h
  simp [State.translate, hpg]

/-- Settles O48: `joinBytes_field` up to byte 31, above which a vector has no bits. -/
theorem littleEndianOperand : Obligations.LittleEndianOperand := by
  refine fun bs hlen => ⟨fun k hk => ?_, fun k hk => ?_⟩
  · rw [joinBytes_field bs k (by omega), List.getD_eq_getElem _ _ hk]
  · rcases Nat.lt_or_ge k 32 with hlt | hge
    · rw [joinBytes_field bs k hlt, List.getD_eq_default _ _ hk]
    · exact Vec.field_of_ge _ k hge

/-- Settles O36: canonical addresses by their top field, and the two answers of the address check that end the read. -/
theorem canonicalOperandCheck : Obligations.CanonicalOperandCheck := by
  refine ⟨State.canonical_iff_bits, fun i m s hready hrm hmode => ⟨fun hw => ?_, fun hw ⟨k, hk, hc⟩ => ?_⟩⟩
  · rw [exec_eq_readMemory hready hrm, State.readMemory, State.checkAddress_of_wraps hmode hw]
    rfl
  · rw [exec_eq_readMemory hready hrm, State.readMemory, State.checkAddress_of_not_canonical hmode hw hk hc]
    rfl

/-- Settles O38: the read ends at the page fault, which is one of the choices. -/
theorem pageFaultOfOperand : Obligations.PageFaultOfOperand := by
  intro i m s k c hready hrm haddr hk hf
  obtain ⟨first, herror⟩ := State.physFrom_eq_error (Nat.zero_le k) (by omega : k < 0 + i.width.bytes) hf
  obtain ⟨⟨a, d⟩, hmem, hx⟩ := State.pageFault_eq_faultAt (State.faultChoices_ne_nil hk hf) first
  obtain ⟨j, hj, hreport, ht, rfl⟩ := State.mem_faultChoices.mp hmem
  refine ⟨j, d, hj, hreport, ht, ?_⟩
  rw [exec_eq_readMemory hready hrm, State.readMemory, haddr.check, Out.andThen_next, ← State.lin, herror]
  simp only [hx, raise_eq, Out.andThen_fault]
  rfl

/-- Settles O39: once the operand translates, the outcome is the alignment check's. -/
theorem alignmentCheckPolicy : Obligations.AlignmentCheckPolicy := by
  refine ⟨State.alignEnabled_iff, fun i m s phys hready hrm haddr htrans => ?_⟩
  have hexec := exec_of_translates hready hrm haddr htrans
  have hnext (h : AlignOk i m s) : ∃ r, exec i s = .next (After i s r) :=
    ⟨_, by rw [hexec, h.check, Out.andThen_next]⟩
  refine ⟨fun h => hnext (h.elim .inl fun h => .inr (.inl h)), fun he hn => ⟨fun hp => ?_, fun hp => ?_, fun hp => ?_⟩⟩
  · rw [hexec, State.alignCheck_of_always he hn hp, Out.andThen_fault]
  · exact hnext (.inr (.inr hp))
  · rcases State.alignCheck_of_mayFault he hn hp with hc | hc
    · exact .inl (by rw [hexec, hc, Out.andThen_fault])
    · exact .inr ⟨_, by rw [hexec, hc, Out.andThen_next]⟩

/-- Settles O40: the premise about the operand's memory stands before the enabling state. -/
theorem nonIdempotentIsRefused : Obligations.NonIdempotentIsRefused := by
  intro i m s k p hmode hwf hip hrm haddr hk ht hp
  exact exec_of_operandSpecial hmode hwf hip (State.operandSpecial_of_byte hrm haddr hk ht hp)

/-- Settles O43: byte `k` observes the batch's first `tearCut k` writes. -/
theorem tornReadSeesSomeMoment : Obligations.TornReadSeesSomeMoment := by
  intro i m s phys hready hrm hread
  have hsrc : s.readRm i = .next (joinBytes (s.seenBytes 0 ((List.range i.width.bytes).map phys))) := by
    rw [State.readRm, hrm]
    exact hread.readMemory
  refine ⟨s.tearCut, _, s.tearCut_le, ?_, hsrc, exec_of_parts hready.gate hsrc⟩
  simp only [List.range_eq_range', State.seenBytes_map_range', State.seenByte_eq_read]

end Sys2Proof.Machine
end

section
/-! SUPPORT. The decoder run forward (spec 30_encoding.md R79): step 1 over admitted and forbidden prefixes, the bytes after
`C4H`, the judgement of step 5, and what they make of the bytes of an encoding. -/

namespace Sys2Proof

/-! ### Step 1 (R56) -/

theorem isForbidden_iff {b : Byte} : isForbidden b = true ↔ b = 0xF0#8 ∨ b = 0x66#8 ∨ b = 0xF2#8 ∨ b = 0xF3#8 := by
  simp [isForbidden, or_assoc]

/-- Step 1 passes over the prefixes of an accepted encoding, whatever follows them. -/
theorem scan_start_append {m : Mode} (p : Prefixes) (t : List Byte) :
    scanPrefixes m Scan.start (p.bytes ++ t) = scanPrefixes m (Scan.of p) t := by
  obtain ⟨seg, addr67⟩ := p
  cases seg <;> cases addr67 <;> simp [Prefixes.bytes, Prefixes.len, Scan.start, Scan.of, scan_seg, scan_byte67]

theorem scan_second_seg {m : Mode} {a : Scan} {g : Seg} {t : List Byte} (h : a.seg.isSome = true) :
    scanPrefixes m a (g.byte :: t) = .stop (.refuse .prefixForm 0) := by
  rw [scanPrefixes]
  simp [segOfByte_byte, h]

theorem scan_second_67 {m : Mode} {a : Scan} {t : List Byte} (h : a.addr67 = true) :
    scanPrefixes m a (0x67#8 :: t) = .stop (.refuse .prefixForm 0) := by
  rw [scanPrefixes]
  have h1 : segOfByte 0x67#8 = none := by decide
  simp [h1, h]

/-- A REX byte is none of the prefixes that step 1 tries before it. -/
theorem isLegacy_of_isRex {b : Byte} (h : isRex b = true) :
    segOfByte b = none ∧ b ≠ 0x67#8 ∧ isForbidden b = false := by
  revert b
  decide

theorem scan_rex_C4 {a : Scan} {b : Byte} {t : List Byte} (h : isRex b = true) :
    scanPrefixes .mode64 a (b :: 0xC4#8 :: t) = .done { a with rex := true, count := a.count + 1 } (0xC4#8 :: t) := by
  obtain ⟨h1, h2, h3⟩ := isLegacy_of_isRex h
  rw [scanPrefixes]
  simp [h1, h2, h3, h, scan_notPrefix (notPrefix_C4 _)]

theorem scan_rex_prefix {a : Scan} {b c : Byte} {t : List Byte} (h : isRex b = true) (hc : isPrefix64 c = true) :
    scanPrefixes .mode64 a (b :: c :: t) = .stop (.refuse .prefixForm 0) := by
  obtain ⟨h1, h2, h3⟩ := isLegacy_of_isRex h
  have hne : c ≠ 0xC4#8 := by
    rintro rfl
    exact absurd hc (by decide)
  rw [scanPrefixes]
  simp [h1, h2, h3, h, hne, hc]

theorem Seg.not_isForbidden (g : Seg) : isForbidden g.byte = false := by cases g <;> rfl

theorem Prefixes.not_isForbidden (p : Prefixes) : ∀ b ∈ p.bytes, isForbidden b = false := by
  obtain ⟨seg, addr67⟩ := p
  cases seg <;> cases addr67 <;> simp [Prefixes.bytes, Seg.not_isForbidden, show isForbidden 0x67#8 = false from rfl]

/-- One forbidden byte anywhere among the prefixes of an accepted encoding is what a filter takes out. -/
theorem Prefixes.filter_insert_forbidden (p : Prefixes) {b : Byte} {before after : List Byte}
    (hb : isForbidden b = true) (h : p.bytes = before ++ after) :
    (before ++ b :: after).filter (fun b => !isForbidden b) = p.bytes := by
  have hall : (before ++ after).filter (fun b => !isForbidden b) = before ++ after :=
    List.filter_eq_self.mpr fun c hc => by simp [p.not_isForbidden c (h ▸ hc)]
  rw [List.filter_append, List.filter_cons_of_neg (by simp [hb]), ← List.filter_append, hall, h]

/-- The first byte of the prefixes of an accepted encoding, and the prefixes after it. -/
theorem Prefixes.bytes_eq_cons {p : Prefixes} {b : Byte} {t : List Byte} (h : p.bytes = b :: t) :
    (∃ g, p.seg = some g ∧ b = g.byte ∧ t = (Prefixes.mk none p.addr67).bytes) ∨
      (p = ⟨none, true⟩ ∧ b = 0x67#8 ∧ t = (Prefixes.mk none false).bytes) := by
  obtain ⟨_ | g, addr67⟩ := p
  · cases addr67 <;> simp_all [Prefixes.bytes]
  · refine .inl ⟨g, rfl, ?_⟩
    simp only [Prefixes.bytes, List.cons_append, List.nil_append, List.cons.injEq] at h
    exact ⟨h.1.symm, h.2.symm⟩

/-- Step 1 over the prefixes of an accepted encoding with forbidden bytes among them, from any state that has seen none of
their kinds: the forbidden bytes are counted and make the encoding bad. -/
theorem scan_interleaved {m : Mode} {c : Byte} {t : List Byte} (hc : notPrefix m c) (pre : List Byte) (p : Prefixes)
    (a : Scan) (hf : pre.filter (fun b => !isForbidden b) = p.bytes)
    (hs : p.seg.isSome = true → a.seg = none) (h67 : p.addr67 = true → a.addr67 = false) :
    scanPrefixes m a (pre ++ c :: t) = .done
      { a with seg := p.seg.or a.seg, addr67 := p.addr67 || a.addr67, bad := a.bad || decide (p.len < pre.length),
               count := a.count + pre.length } (c :: t) := by
  induction pre generalizing p a with
  | nil =>
    obtain ⟨_ | g, _ | _⟩ := p <;> simp [Prefixes.bytes] at hf
    simp [scan_notPrefix hc, Prefixes.len]
  | cons b pre ih =>
    rw [List.cons_append]
    by_cases hb : isForbidden b = true
    · rw [List.filter_cons_of_neg (by simp [hb])] at hf
      have hle : p.len ≤ pre.length := by
        rw [← p.bytes_length, ← hf]
        exact List.length_filter_le ..
      rw [scan_forbidden hb, ih p { a with bad := true, count := a.count + 1 } hf hs h67]
      simp [Nat.lt_succ_of_le hle, Nat.add_assoc, Nat.add_comm 1]
    · rw [List.filter_cons_of_pos (by simp [hb])] at hf
      rcases Prefixes.bytes_eq_cons hf.symm with ⟨g, hg, rfl, ht⟩ | ⟨rfl, rfl, ht⟩
      · rw [scan_seg (hs (by simp [hg])), ih ⟨none, p.addr67⟩ { a with seg := some g, count := a.count + 1 } ht (by simp) h67]
        simp [hg, Prefixes.len, Nat.add_assoc, Nat.add_comm 1]
      · rw [scan_byte67 (h67 rfl), ih ⟨none, false⟩ _ ht (by simp) (by simp)]
        simp [Prefixes.len, Nat.add_assoc, Nat.add_comm 1]

theorem decode_of_scan {m : Mode} {a : Scan} {bytes t : List Byte}
    (h : scanPrefixes m Scan.start bytes = .done a (0xC4#8 :: t)) : decode m bytes = decodeVex m a t := by
  rw [decode, h]
  rfl

theorem decode_of_stop {m : Mode} {bytes : List Byte} {v : Verdict}
    (h : scanPrefixes m Scan.start bytes = .stop v) : decode m bytes = v := by
  rw [decode, h]

/-- After admitted prefixes and `C4H` the VEX bytes decide. -/
theorem decode_prefixes_C4 {m : Mode} (p : Prefixes) (t : List Byte) :
    decode m (p.bytes ++ 0xC4#8 :: t) = decodeVex m (Scan.of p) t :=
  decode_of_scan (scan_start_prefixes p (notPrefix_C4 m))

/-! ### The bytes after `C4H` (R60, R61, R73, R78) -/

/-- The two pairs of map and opcode byte that are VPERMILPS's (R78). -/
theorem exists_rowOf_iff {p1 op : Byte} : (∃ row, rowOf p1 op = some row) ↔
    (p1.extractLsb' 0 5 = 2#5 ∧ op = 0x0C#8) ∨ (p1.extractLsb' 0 5 = 3#5 ∧ op = 0x04#8) := by
  unfold rowOf
  split
  · simp_all
  · split <;> simp_all

section
variable {m : Mode} {a : Scan} {p1 p2 op : Byte} {row : Row} {t : List Byte}

/-- Outside `Mode64` `C4H` before a byte whose bits `7:6` are not both 1 is LES (R61). -/
theorem decodeVex_les (hm : m ≠ .mode64) (h : p1.extractLsb' 6 2 ≠ 3#2) :
    decodeVex m a (p1 :: p2 :: op :: t) = .notVpermilps := by
  rw [decodeVex, if_pos (by simp [hm, h])]

/-- Another map, opcode byte or `pp` is another instruction (R78). -/
theorem decodeVex_other (h : ∀ row, rowOf p1 op = some row → p2.extractLsb' 0 2 ≠ 1#2) :
    decodeVex m a (p1 :: p2 :: op :: t) = .notVpermilps := by
  rw [decodeVex]
  split
  · rfl
  · split
    · rfl
    · rw [if_pos (h _ ‹_›)]

/-- The bytes of a VPERMILPS opcode lead to the operands, but in `Mode16` (R73). -/
theorem decodeVex_opcode (hx : m ≠ .mode64 → p1.extractLsb' 6 2 = 3#2) (hrow : rowOf p1 op = some row)
    (hpp : p2.extractLsb' 0 2 = 1#2) :
    decodeVex m a (p1 :: p2 :: op :: t)
      = if m = .mode16 then .refuse .mode16 0 else decodeOperands m a p1 p2 row t := by
  rw [decodeVex, if_neg (by simpa using hx)]
  simp [hrow, hpp]

end

/-! ### The judgement (R79 steps 5c to 5h) -/

/-- The check of R61 outside `Mode64`: the stored high bit of the `r/m` register or of `vvvv` is 0. -/
def highBitSet (m : Mode) (p1 p2 : Byte) : Bool :=
  m ≠ .mode64 && (p1.extractLsb' 5 1 = 0#1 || p2.extractLsb' 6 1 = 0#1)

section
variable {m : Mode} {a : Scan} {p1 p2 : Byte} {row : Row} {len : Nat} {i : Instr}

theorem judge_tooLong (h : 15 < len) : judge m a p1 p2 row len i = .refuse .tooLong len := by
  rw [judge, if_pos h]

theorem judge_mode32HighBit (hl : len ≤ 15) (h : highBitSet m p1 p2 = true) :
    judge m a p1 p2 row len i = .refuse .mode32HighBit len := by
  rw [highBitSet] at h
  rw [judge, if_neg (by omega), if_pos h]

/-- Any of the four reasons of steps 5d to 5f gives `UD`. -/
theorem judge_ud (hl : len ≤ 15) (h : highBitSet m p1 p2 = false)
    (hud : a.bad = true ∨ a.rex = true ∨ p2.extractLsb' 7 1 = 1#1 ∨ (row = .rmi ∧ p2.extractLsb' 3 4 ≠ 15#4)) :
    judge m a p1 p2 row len i = .ud len := by
  rw [highBitSet] at h
  rw [judge, if_neg (by omega), if_neg (Bool.eq_false_iff.mp h)]
  split
  · rfl
  · split
    · rfl
    · rw [if_pos]
      simp_all

/-- Steps 5d to 5f pass. -/
structure Unreserved (a : Scan) (p2 : Byte) (row : Row) : Prop where
  bad  : a.bad = false
  rex  : a.rex = false
  w    : p2.extractLsb' 7 1 = 0#1
  vvvv : row = .rmi → p2.extractLsb' 3 4 = 15#4

theorem judge_unreserved (hl : len ≤ 15) (h : highBitSet m p1 p2 = false) (hu : Unreserved a p2 row) :
    judge m a p1 p2 row len i = if i.addr16 m then .refuse .addrSize16 len else .form i := by
  obtain ⟨hb, hr, hw, hv⟩ := hu
  rw [highBitSet] at h
  rw [judge, if_neg (by omega), if_neg (Bool.eq_false_iff.mp h)]
  simp +contextual [hb, hr, hw, hv]

/-- The judgement accepts a form only where no earlier check speaks against it. -/
theorem judge_eq_form {j : Instr} (h : judge m a p1 p2 row len i = .form j) :
    j = i ∧ len ≤ 15 ∧ highBitSet m p1 p2 = false ∧ Unreserved a p2 row ∧ i.addr16 m = false := by
  have hl : len ≤ 15 := by
    by_contra hc
    rw [judge_tooLong (by omega)] at h
    cases h
  have hb : highBitSet m p1 p2 = false := by
    by_contra hc
    rw [judge_mode32HighBit hl (by simpa using hc)] at h
    cases h
  have hu : ¬ (a.bad = true ∨ a.rex = true ∨ p2.extractLsb' 7 1 = 1#1 ∨ (row = .rmi ∧ p2.extractLsb' 3 4 ≠ 15#4)) := by
    intro hc
    rw [judge_ud hl hb hc] at h
    cases h
  have hbit : ∀ w : BitVec 1, w ≠ 1#1 → w = 0#1 := by decide
  simp only [not_or, Bool.not_eq_true, not_and, not_not] at hu
  obtain ⟨hbad, hrex, hw, hv⟩ := hu
  have hun : Unreserved a p2 row := ⟨hbad, hrex, hbit _ hw, hv⟩
  rw [judge_unreserved hl hb hun] at h
  split at h
  · cases h
  · cases h
    exact ⟨rfl, hl, hb, hun, Bool.eq_false_iff.mpr ‹¬_›⟩

end

/-! ### The bytes of an encoding -/

/-- `P1` of an encoding (R57). -/
abbrev Instr.p1 (i : Instr) : Byte := ~~~i.dst.hi ++ ~~~i.rm.fields.x ++ ~~~i.rm.fields.b ++ i.mapField

/-- `P2` of an encoding with the `W` bit and the stored `vvvv` given (R58). -/
abbrev Instr.p2 (i : Instr) (w : BitVec 1) (v : BitVec 4) : Byte := w ++ v ++ i.width.l ++ 1#2

theorem Instr.highBitSet_of_fits {m : Mode} {i : Instr} {w : BitVec 1} {v : BitVec 4} (hf : i.fits m = true)
    (hv : m ≠ .mode64 → v.getLsbD 3 = true) : highBitSet m i.p1 (i.p2 w v) = false :=
  Instr.high_bits_ok hf hv

section
variable {m : Mode} {i : Instr} {a : Scan} {n : Nat} {w : BitVec 1} {v : BitVec 4}

/-- The judgement on the body of an encoding that fits the mode, `n` bytes more among its prefixes than its own. -/
theorem decodeVex_body_of_fits (rest : List Byte) (hf : i.fits m = true) (hm : m ≠ .mode16)
    (hn : a.count = n + i.prefixes.len) :
    decodeVex m a (i.body w v rest) = judge m a i.p1 (i.p2 w v) i.row (n + i.ilen)
      (buildInstr i.row i.width ⟨a.seg, a.addr67⟩ i.dst (~~~v) i.rm (i.imm8.getD 0)) := by
  have hlen : a.count + 3 + 1 + 1 + i.rm.extraLen + i.immLen = n + i.ilen := by
    rw [Instr.ilen]
    omega
  rw [decodeVex_body a w v rest (Instr.fits_parts hf).2 hm (Instr.rx_of_fits hf), hlen]

/-- Each reason of steps 5d to 5f makes an encoding of at most 15 bytes `UD` (R56, R75, R76). -/
theorem decodeVex_body_ud (rest : List Byte) (hf : i.fits m = true) (hm : m ≠ .mode16)
    (hv : m ≠ .mode64 → v.getLsbD 3 = true) (hn : a.count = n + i.prefixes.len) (hl : n + i.ilen ≤ 15)
    (hud : a.bad = true ∨ a.rex = true ∨ w = 1#1 ∨ (i.row = .rmi ∧ v ≠ 15#4)) :
    decodeVex m a (i.body w v rest) = .ud (n + i.ilen) := by
  rw [decodeVex_body_of_fits rest hf hm hn]
  exact judge_ud hl (Instr.highBitSet_of_fits hf hv) (by rwa [p2_W, p2_v])

theorem decode_encodeWith_ud (rest : List Byte) (hf : i.fits m = true) (hm : m ≠ .mode16)
    (hv : m ≠ .mode64 → v.getLsbD 3 = true) (hud : w = 1#1 ∨ (i.row = .rmi ∧ v ≠ 15#4)) :
    decode m (i.encodeWith w v ++ rest) = .ud i.ilen := by
  have hl := i.ilen_bounds
  rw [Instr.encodeWith_append, decode_prefixes_C4]
  have h := decodeVex_body_ud (a := Scan.of i.prefixes) (n := 0) (w := w) rest hf hm hv (Nat.zero_add _).symm (by omega)
    (.inr (.inr hud))
  rwa [Nat.zero_add] at h

theorem Instr.storedV_of_rmi (h : i.row = .rmi) : i.storedV = 15#4 := by
  cases i with
  | var128 => cases h
  | imm128 => rfl
  | var256 => cases h
  | imm256 => rfl

/-- The encoding of an instruction that fits the mode is the instruction, but for the 16-bit address size (R73). -/
theorem decode_encode_of_fits (rest : List Byte) (hf : i.fits m = true) (hm : m ≠ .mode16) :
    decode m (encode i ++ rest) = if i.addr16 m then .refuse .addrSize16 i.ilen else .form i := by
  have hu : Unreserved (Scan.of i.prefixes) (i.p2 0#1 i.storedV) i.row :=
    ⟨rfl, rfl, p2_W .., fun h => by rw [p2_v, Instr.storedV_of_rmi h]⟩
  have hl := i.ilen_bounds
  rw [encode, decode_encodeWith _ _ rest (Instr.fits_parts hf).2 hm (Instr.rx_of_fits hf), i.build_encoding]
  exact judge_unreserved (by omega) (Instr.highBitSet_of_fits hf (Instr.storedV_high hf)) hu

end

end Sys2Proof
end

section
/-! SUPPORT. The decoder inverted (spec 30_encoding.md R63 to R74, R79): how many bytes each part of it reads, what an
accepted form says of its bytes, and that an accepted form is well formed. -/

namespace Sys2Proof

/-! ### Readers of bytes (R68 to R70) -/

/-- A reader that takes `n x` bytes, and no others decide, where it reads `x`; with `k` bytes it always reads something. -/
structure ReadsExactly {α : Type} (f : List Byte → Option (α × List Byte)) (n : α → Nat) (k : Nat) : Prop where
  consumes : ∀ {t x r}, f t = some (x, r) → ∃ used, t = used ++ r ∧ used.length = n x ∧ f used = some (x, [])
  total    : ∀ {t}, k ≤ t.length → ∃ x r, f t = some (x, r)

section
variable {α β : Type} {f : List Byte → Option (α × List Byte)} {n : α → Nat} {k : Nat}

theorem ReadsExactly.pure (x : α) (h : n x = 0) : ReadsExactly (fun t => some (x, t)) n k where
  consumes := by
    intro t y r he
    cases he
    exact ⟨[], rfl, h.symm, rfl⟩
  total := fun {t} _ => ⟨x, t, rfl⟩

theorem ReadsExactly.mono (hf : ReadsExactly f n k) {l : Nat} (h : k ≤ l) : ReadsExactly f n l where
  consumes := hf.consumes
  total := fun hl => hf.total (h.trans hl)

theorem ReadsExactly.map (hf : ReadsExactly f n k) (g : α → β) {n' : β → Nat} (h : ∀ x, n' (g x) = n x) :
    ReadsExactly (fun t => (f t).map fun q => (g q.1, q.2)) n' k where
  consumes := by
    intro t y r he
    obtain ⟨⟨x, r'⟩, hx, he⟩ := Option.map_eq_some_iff.mp he
    cases he
    obtain ⟨used, ht, hlen, hused⟩ := hf.consumes hx
    exact ⟨used, ht, hlen.trans (h x).symm, by rw [hused]; rfl⟩
  total := by
    intro t ht
    obtain ⟨x, r, hx⟩ := hf.total ht
    exact ⟨g x, r, by rw [hx]; rfl⟩

/-- A reader that looks at one byte first. -/
theorem ReadsExactly.cons (h0 : f [] = none) (hf : ∀ b, ReadsExactly (fun t => f (b :: t)) (fun x => n x - 1) k)
    (hn : ∀ b t x r, f (b :: t) = some (x, r) → 0 < n x) : ReadsExactly f n (k + 1) where
  consumes := by
    intro t x r he
    cases t with
    | nil => simp [h0] at he
    | cons b t =>
      obtain ⟨used, rfl, hlen, hused⟩ := (hf b).consumes he
      refine ⟨b :: used, rfl, ?_, hused⟩
      have := hn b _ x r he
      rw [List.length_cons]
      omega
  total := by
    intro t ht
    cases t with
    | nil => simp at ht
    | cons b t => exact (hf b).total (Nat.le_of_succ_le_succ ht)

end

theorem takeDisp32_reads : ReadsExactly takeDisp32 (fun _ => 4) 4 where
  consumes := by
    intro t d r h
    match t, h with
    | d0 :: d1 :: d2 :: d3 :: t, h =>
      cases h
      exact ⟨[d0, d1, d2, d3], rfl, rfl, rfl⟩
  total := by
    intro t h
    match t, h with
    | d0 :: d1 :: d2 :: d3 :: t, _ => exact ⟨_, _, rfl⟩

theorem takeDisp_reads (md : BitVec 2) : ReadsExactly (takeDisp md) Disp.len 4 := by
  by_cases h0 : md = 0#2
  · subst h0
    exact .pure Disp.none rfl
  by_cases h1 : md = 1#2
  · subst h1
    exact ReadsExactly.mono (k := 1)
      (.cons rfl (fun b => .pure (Disp.d8 b) rfl) fun b t x r h => by cases h; exact Nat.one_pos) (by omega)
  · have hf : takeDisp md = fun t => (takeDisp32 t).map fun q => (.d32 q.1, q.2) :=
      funext fun t => by rw [takeDisp.eq_def, if_neg h0, if_neg h1]
    exact hf ▸ takeDisp32_reads.map Disp.d32 fun _ => rfl

theorem takeSib_reads (md : BitVec 2) (x b : BitVec 1) : ReadsExactly (takeSib md x b) Rm.extraLen 5 := by
  refine .cons rfl (fun sib => ?_) (fun sib t rm r h => ?_)
  · by_cases hc : sib.extractLsb' 0 3 = 5#3 && md = 0#2
    · simp only [takeSib, if_pos hc]
      exact takeDisp32_reads.map (fun d => Rm.mem (.sibNoBase (indexOf x sib) d)) fun _ => rfl
    · simp only [takeSib, if_neg hc]
      exact (takeDisp_reads md).map (fun d => Rm.mem (.sib (b ++ sib.extractLsb' 0 3) (indexOf x sib) d))
        fun d => Nat.add_sub_cancel_left 1 d.len
  · rw [takeSib] at h
    split at h
    all_goals
      obtain ⟨q, -, he⟩ := Option.map_eq_some_iff.mp h
      cases he
      simp [Rm.extraLen]

theorem takeRm_reads (m : Mode) (x b : BitVec 1) (modrm : Byte) : ReadsExactly (takeRm m x b modrm) Rm.extraLen 5 := by
  unfold takeRm
  by_cases h3 : modrm.extractLsb' 6 2 = 3#2
  · simp only [if_pos h3]
    exact .pure (Rm.reg _) rfl
  by_cases h4 : modrm.extractLsb' 0 3 = 4#3
  · simp only [if_neg h3, if_pos h4]
    exact takeSib_reads ..
  by_cases h5 : modrm.extractLsb' 6 2 = 0#2 && modrm.extractLsb' 0 3 = 5#3
  · simp only [if_neg h3, if_neg h4, if_pos h5]
    exact (takeDisp32_reads.mono (by omega)).map (fun d => Rm.mem (if m = .mode64 then .ripRel d else .abs32 d))
      fun _ => by split <;> rfl
  · simp only [if_neg h3, if_neg h4, if_neg h5]
    exact ((takeDisp_reads _).mono (by omega)).map (fun d => Rm.mem (.base _ d)) fun _ => rfl

/-- The immediate bytes of a row (R67). -/
def Row.immLen : Row → Nat
  | .rvm => 0
  | .rmi => 1

theorem Row.immLen_le (row : Row) : row.immLen ≤ 1 := by cases row <;> simp [Row.immLen]

theorem takeImm_consumes {row : Row} {t : List Byte} {imm : BitVec 8} (h : takeImm row t = some imm) :
    ∃ used r, t = used ++ r ∧ used.length = row.immLen ∧ takeImm row used = some imm := by
  cases row with
  | rvm => exact ⟨[], t, rfl, rfl, h⟩
  | rmi =>
    match t, h with
    | b :: t, h => exact ⟨[b], t, rfl, rfl, h⟩

theorem takeImm_total {row : Row} {t : List Byte} (h : row.immLen ≤ t.length) : ∃ imm, takeImm row t = some imm := by
  cases row with
  | rvm => exact ⟨_, rfl⟩
  | rmi =>
    match t, h with
    | b :: t, _ => exact ⟨b, rfl⟩

/-- Six bytes after ModRM are enough for the operand and the immediate (R74). -/
theorem operands_total (m : Mode) (x b : BitVec 1) (modrm : Byte) (row : Row) {t : List Byte} (h : 6 ≤ t.length) :
    ∃ rm r imm, takeRm m x b modrm t = some (rm, r) ∧ takeImm row r = some imm := by
  obtain ⟨rm, r, hrm⟩ := (takeRm_reads m x b modrm).total (Nat.le_of_succ_le h)
  obtain ⟨used, rfl, hused, -⟩ := (takeRm_reads m x b modrm).consumes hrm
  have hr := rm.extraLen_le
  have hi := row.immLen_le
  rw [List.length_append] at h
  obtain ⟨imm, himm⟩ := takeImm_total (row := row) (t := r) (by omega)
  exact ⟨rm, r, imm, hrm, himm⟩

/-! ### The operand is one the mode can name (R61, R64, R69) -/

theorem RegNum.fits_append {m : Mode} {hi : BitVec 1} (low : BitVec 3) (h : m ≠ .mode64 → hi = 0#1) :
    RegNum.fits m (hi ++ low : RegNum) = true := by
  by_cases hm : m = .mode64
  · simp [RegNum.fits, hm]
  · have key : ∀ low : BitVec 3, (0#1 ++ low : RegNum).toNat < 8 := by decide
    simp only [RegNum.fits, h hm, key low, decide_true, Bool.or_true]

theorem RegNum.lowIs_append (hi : BitVec 1) (low k : BitVec 3) :
    RegNum.lowIs (hi ++ low : RegNum) k = decide (low = k) := by
  revert hi low k
  decide

theorem indexOf_fits {m : Mode} {x : BitVec 1} (sib : Byte) (h : m ≠ .mode64 → x = 0#1) :
    Index.optionFits m (indexOf x sib) = true := by
  rw [indexOf]
  split
  · rfl
  · simp only [Index.optionFits, Index.fits, RegNum.fits_append _ h, Bool.and_true, decide_eq_true_eq]
    assumption

theorem takeDisp_none {md : BitVec 2} {t r : List Byte} (h : takeDisp md t = some (.none, r)) : md = 0#2 := by
  rw [takeDisp.eq_def] at h
  split at h
  · assumption
  · split at h
    · split at h <;> simp at h
    · simp at h

section
variable {m : Mode} {x b : BitVec 1} (hx : m ≠ .mode64 → x = 0#1) (hb : m ≠ .mode64 → b = 0#1)
include hx hb

theorem takeSib_fits {md : BitVec 2} {t r : List Byte} {rm : Rm} (h : takeSib md x b t = some (rm, r)) :
    rm.fits m = true := by
  cases t with
  | nil => cases h
  | cons sib t =>
    rw [takeSib] at h
    split at h
    · obtain ⟨q, -, he⟩ := Option.map_eq_some_iff.mp h
      cases he
      exact indexOf_fits sib hx
    · rename_i h5
      obtain ⟨⟨d, r'⟩, hd, he⟩ := Option.map_eq_some_iff.mp h
      cases he
      have hbase : ¬ (d = .none ∧ sib.extractLsb' 0 3 = 5#3) := by
        rintro ⟨rfl, hs5⟩
        simp [hs5, takeDisp_none hd] at h5
      simpa [Rm.fits, MemForm.fits, RegNum.fits_append _ hb, indexOf_fits sib hx, RegNum.lowIs_append,
        imp_iff_not_or] using hbase

theorem takeRm_fits {modrm : Byte} {t r : List Byte} {rm : Rm} (h : takeRm m x b modrm t = some (rm, r)) :
    rm.fits m = true := by
  simp only [takeRm.eq_def] at h
  split at h
  · cases h
    exact RegNum.fits_append _ hb
  split at h
  · exact takeSib_fits hx hb h
  rename_i h4
  split at h
  · obtain ⟨q, -, he⟩ := Option.map_eq_some_iff.mp h
    cases he
    by_cases hm : m = .mode64 <;> simp [Rm.fits, MemForm.fits, hm]
  · rename_i h5
    obtain ⟨⟨d, r'⟩, hd, he⟩ := Option.map_eq_some_iff.mp h
    cases he
    have hbase : ¬ (d = .none ∧ modrm.extractLsb' 0 3 = 5#3) := by
      rintro ⟨rfl, hr5⟩
      simp [hr5, takeDisp_none hd] at h5
    simpa [Rm.fits, MemForm.fits, RegNum.fits_append _ hb, RegNum.lowIs_append, h4, imp_iff_not_or] using hbase

end

/-- The mode chooses between RIP-relative and absolute, and nothing else of the operand (R68). -/
theorem takeRm_other_mode {m : Mode} {x b : BitVec 1} {modrm : Byte} {t r : List Byte} {rm : Rm} (m' : Mode)
    (h : takeRm m x b modrm t = some (rm, r)) :
    ∃ rm', takeRm m' x b modrm t = some (rm', r) ∧ rm'.extraLen = rm.extraLen := by
  simp only [takeRm.eq_def] at h ⊢
  split at h
  · rw [if_pos ‹_›]
    exact ⟨rm, h, rfl⟩
  rw [if_neg ‹_›]
  split at h
  · rw [if_pos ‹_›]
    exact ⟨rm, h, rfl⟩
  rw [if_neg ‹_›]
  split at h
  · rw [if_pos ‹_›]
    obtain ⟨⟨d, r'⟩, hd, he⟩ := Option.map_eq_some_iff.mp h
    cases he
    rw [hd]
    exact ⟨_, rfl, by split <;> split <;> rfl⟩
  · rw [if_neg ‹_›]
    exact ⟨rm, h, rfl⟩

/-! ### The operands and the judgement (R64 to R67) -/

/-- The instruction that step 5h assembles. -/
def assemble (a : Scan) (p1 p2 modrm : Byte) (row : Row) (rm : Rm) (imm : BitVec 8) : Instr :=
  buildInstr row (widthOf p2) { seg := a.seg, addr67 := a.addr67 } (~~~(p1.extractLsb' 7 1) ++ modrm.extractLsb' 3 3)
    (~~~(p2.extractLsb' 3 4)) rm imm

section
variable {m : Mode} {a : Scan} {p1 p2 modrm : Byte} {row : Row} {rm : Rm} {imm : BitVec 8} {i : Instr}

theorem assemble_prefixes : (assemble a p1 p2 modrm row rm imm).prefixes = ⟨a.seg, a.addr67⟩ := by
  rw [assemble]
  cases row <;> cases widthOf p2 <;> rfl

theorem assemble_immLen : (assemble a p1 p2 modrm row rm imm).immLen = row.immLen := by
  rw [assemble]
  cases row <;> cases widthOf p2 <;> rfl

theorem assemble_ilen : (assemble a p1 p2 modrm row rm imm).ilen
    = Prefixes.len ⟨a.seg, a.addr67⟩ + 3 + 1 + 1 + rm.extraLen + row.immLen := by
  have hrm : (assemble a p1 p2 modrm row rm imm).rm = rm := by
    rw [assemble]
    cases row <;> cases widthOf p2 <;> rfl
  rw [Instr.ilen, assemble_prefixes, assemble_immLen, hrm]

/-- Outside `Mode64` the checks of steps 3 and 5c leave the high bits of all register numbers 0 (R61). -/
theorem assemble_fits (hx : m ≠ .mode64 → p1.extractLsb' 6 2 = 3#2) (hh : highBitSet m p1 p2 = false)
    (hrm : rm.fits m = true) : (assemble a p1 p2 modrm row rm imm).fits m = true := by
  have hdst : RegNum.fits m (~~~(p1.extractLsb' 7 1) ++ modrm.extractLsb' 3 3) = true := by
    refine RegNum.fits_append _ fun hm => ?_
    have key : ∀ p1 : Byte, p1.extractLsb' 6 2 = 3#2 → ~~~(p1.extractLsb' 7 1) = 0#1 := by decide
    exact key p1 (hx hm)
  have hv : RegNum.fits m (~~~(p2.extractLsb' 3 4)) = true := by
    by_cases hm : m = .mode64
    · simp [RegNum.fits, hm]
    · have key : ∀ p2 : Byte, p2.extractLsb' 6 1 ≠ 0#1 → (~~~(p2.extractLsb' 3 4)).toNat < 8 := by decide
      have h6 : p2.extractLsb' 6 1 ≠ 0#1 := by
        intro h6
        simp [highBitSet, hm, h6] at hh
      simp only [RegNum.fits, key p2 h6, decide_true, Bool.or_true]
  rw [assemble]
  cases row <;> cases widthOf p2 <;>
    simp [buildInstr, Instr.fits, Instr.dst, Instr.rm, Instr.vvvv, hdst, hrm, hv]

theorem decodeOperands_of_parts {t r : List Byte}
    (hrm : takeRm m (~~~(p1.extractLsb' 6 1)) (~~~(p1.extractLsb' 5 1)) modrm t = some (rm, r))
    (himm : takeImm row r = some imm) :
    decodeOperands m a p1 p2 row (modrm :: t)
      = judge m a p1 p2 row (a.count + 3 + 1 + 1 + rm.extraLen + row.immLen) (assemble a p1 p2 modrm row rm imm) := by
  rw [← assemble_immLen, decodeOperands, hrm]
  dsimp only
  rw [himm]
  rfl

theorem decodeOperands_parts {t : List Byte} (h : decodeOperands m a p1 p2 row t ≠ .short) :
    ∃ modrm u rm r imm, t = modrm :: u ∧
      takeRm m (~~~(p1.extractLsb' 6 1)) (~~~(p1.extractLsb' 5 1)) modrm u = some (rm, r) ∧
      takeImm row r = some imm := by
  cases t with
  | nil => exact absurd rfl h
  | cons modrm u =>
    rw [decodeOperands] at h
    split at h
    · exact absurd rfl h
    · split at h
      · exact absurd rfl h
      · exact ⟨modrm, u, _, _, _, rfl, ‹_›, ‹_›⟩

/-- What acceptance says of the scan before the operands (R56). -/
theorem decodeOperands_form_scan {t : List Byte} (h : decodeOperands m a p1 p2 row t = .form i) :
    a.bad = false ∧ a.rex = false ∧ i.prefixes = ⟨a.seg, a.addr67⟩ := by
  obtain ⟨modrm, u, rm, r, imm, rfl, hrm, himm⟩ := decodeOperands_parts (by rw [h]; simp)
  rw [decodeOperands_of_parts hrm himm] at h
  obtain ⟨rfl, -, -, hu, -⟩ := judge_eq_form h
  exact ⟨hu.bad, hu.rex, assemble_prefixes⟩

theorem decodeOperands_form_wf {t : List Byte} (hx : m ≠ .mode64 → p1.extractLsb' 6 2 = 3#2) (hm : m ≠ .mode16)
    (h : decodeOperands m a p1 p2 row t = .form i) : i.wf m = true := by
  obtain ⟨modrm, u, rm, r, imm, rfl, hrm, himm⟩ := decodeOperands_parts (by rw [h]; simp)
  rw [decodeOperands_of_parts hrm himm] at h
  obtain ⟨rfl, -, hh, -, h16⟩ := judge_eq_form h
  have hfits : rm.fits m = true := by
    refine takeRm_fits (fun hm => ?_) (fun hm => ?_) hrm
    · have key : ∀ p1 : Byte, p1.extractLsb' 6 2 = 3#2 → ~~~(p1.extractLsb' 6 1) = 0#1 := by decide
      exact key p1 (hx hm)
    · have key : ∀ p1 : Byte, p1.extractLsb' 5 1 ≠ 0#1 → ~~~(p1.extractLsb' 5 1) = 0#1 := by decide
      refine key p1 fun h5 => ?_
      simp [highBitSet, hm, h5] at hh
  simp [Instr.wf, assemble_fits hx hh hfits, hm, h16]

/-- The ModRM byte, the operand and the immediate decide, and are counted in the length (R74). -/
theorem decodeOperands_form_reads {t : List Byte} (h : decodeOperands m a p1 p2 row t = .form i) :
    ∃ used u, t = used ++ u ∧ i.ilen = i.prefixes.len + 4 + used.length ∧
      decodeOperands m a p1 p2 row used = .form i := by
  obtain ⟨modrm, t', rm, r, imm, rfl, hrm, himm⟩ := decodeOperands_parts (by rw [h]; simp)
  obtain ⟨ub, rfl, hub, hrm'⟩ := (takeRm_reads ..).consumes hrm
  obtain ⟨ui, u, rfl, hui, himm'⟩ := takeImm_consumes himm
  rw [decodeOperands_of_parts hrm himm] at h
  have hi := (judge_eq_form h).1
  refine ⟨modrm :: (ub ++ ui), u, by simp, ?_, ?_⟩
  · rw [hi, assemble_ilen, assemble_prefixes, ← hub, ← hui, List.length_cons, List.length_append]
    omega
  · have hrm'' := takeRm_append (u := ui) hrm'
    rw [List.nil_append] at hrm''
    rw [decodeOperands_of_parts hrm'' himm', h]

/-! `W` is bit 7 of `P2`, and the other fields do not see it (R58). -/

theorem p2_setW_W (p2 : Byte) : (p2 ||| 0x80#8).extractLsb' 7 1 = 1#1 := by
  revert p2
  decide

theorem p2_setW_vHigh (p2 : Byte) : (p2 ||| 0x80#8).extractLsb' 6 1 = p2.extractLsb' 6 1 := by
  revert p2
  decide

theorem p2_setW_pp (p2 : Byte) : (p2 ||| 0x80#8).extractLsb' 0 2 = p2.extractLsb' 0 2 := by
  revert p2
  decide

theorem highBitSet_setW : highBitSet m p1 (p2 ||| 0x80#8) = highBitSet m p1 p2 := by
  rw [highBitSet, p2_setW_vHigh, highBitSet]

/-- Accepted operands are `UD` under `W = 1` (R75). -/
theorem decodeOperands_setW {t : List Byte} (h : decodeOperands m a p1 p2 row t = .form i)
    (hn : a.count = i.prefixes.len) : decodeOperands m a p1 (p2 ||| 0x80#8) row t = .ud i.ilen := by
  obtain ⟨modrm, u, rm, r, imm, rfl, hrm, himm⟩ := decodeOperands_parts (by rw [h]; simp)
  rw [decodeOperands_of_parts hrm himm] at h ⊢
  obtain ⟨rfl, hl, hh, -, -⟩ := judge_eq_form h
  rw [assemble_prefixes] at hn
  rw [assemble_ilen, ← hn]
  exact judge_ud hl (highBitSet_setW.trans hh) (.inr (.inr (.inl (p2_setW_W p2))))

end

/-! ### The bytes after `C4H` of an accepted form -/

theorem decodeVex_eq_form {m : Mode} {a : Scan} {l : List Byte} {i : Instr} (h : decodeVex m a l = .form i) :
    ∃ p1 p2 op row t, l = p1 :: p2 :: op :: t ∧ (m ≠ .mode64 → p1.extractLsb' 6 2 = 3#2) ∧ rowOf p1 op = some row ∧
      p2.extractLsb' 0 2 = 1#2 ∧ m ≠ .mode16 ∧ decodeOperands m a p1 p2 row t = .form i := by
  match l, h with
  | p1 :: p2 :: op :: t, h =>
    have hx : m ≠ .mode64 → p1.extractLsb' 6 2 = 3#2 := by
      intro hm
      by_contra hc
      rw [decodeVex_les hm hc] at h
      cases h
    obtain ⟨row, hrow, hpp⟩ : ∃ row, rowOf p1 op = some row ∧ p2.extractLsb' 0 2 = 1#2 := by
      by_contra hc
      rw [decodeVex_other fun row hrow hpp => hc ⟨row, hrow, hpp⟩] at h
      cases h
    rw [decodeVex_opcode hx hrow hpp] at h
    split at h
    · cases h
    · exact ⟨p1, p2, op, row, t, rfl, hx, hrow, hpp, ‹_›, h⟩

section
variable {m : Mode} {a : Scan} {l : List Byte} {i : Instr}

theorem decodeVex_form_scan (h : decodeVex m a l = .form i) :
    a.bad = false ∧ a.rex = false ∧ i.prefixes = ⟨a.seg, a.addr67⟩ := by
  obtain ⟨_, _, _, _, _, -, -, -, -, -, hops⟩ := decodeVex_eq_form h
  exact decodeOperands_form_scan hops

theorem decodeVex_form_wf (h : decodeVex m a l = .form i) : i.wf m = true := by
  obtain ⟨_, _, _, _, _, -, hx, -, -, hm, hops⟩ := decodeVex_eq_form h
  exact decodeOperands_form_wf hx hm hops

theorem decodeVex_form_reads (h : decodeVex m a l = .form i) :
    ∃ used u, l = used ++ u ∧ i.ilen = i.prefixes.len + 1 + used.length ∧ decodeVex m a used = .form i := by
  obtain ⟨p1, p2, op, row, t, rfl, hx, hrow, hpp, hm, hops⟩ := decodeVex_eq_form h
  obtain ⟨used, u, rfl, hlen, hused⟩ := decodeOperands_form_reads hops
  refine ⟨p1 :: p2 :: op :: used, u, rfl, ?_, ?_⟩
  · simp only [hlen, List.length_cons]
    omega
  · rw [decodeVex_opcode hx hrow hpp, if_neg hm, hused]

theorem decodeVex_setW {p1 p2 : Byte} (h : decodeVex m a (p1 :: p2 :: l) = .form i) (hn : a.count = i.prefixes.len) :
    decodeVex m a (p1 :: (p2 ||| 0x80#8) :: l) = .ud i.ilen := by
  obtain ⟨p1, p2, op, row, t, he, hx, hrow, hpp, hm, hops⟩ := decodeVex_eq_form h
  cases he
  rw [decodeVex_opcode hx hrow ((p2_setW_pp p2).trans hpp), if_neg hm, decodeOperands_setW hops hn]

end

/-! ### The prefixes of an accepted form (R56) -/

/-- The bytes counted are those of the override and of `67H` seen, unless a forbidden byte or a REX byte is among them. -/
def Scan.Exact (a : Scan) : Prop := a.bad = false → a.rex = false → a.count = Prefixes.len ⟨a.seg, a.addr67⟩

theorem Scan.exact_of_bad {a : Scan} (h : a.bad = true) : a.Exact := fun hb _ => by simp [h] at hb

theorem Scan.exact_of_rex {a : Scan} (h : a.rex = true) : a.Exact := fun _ hr => by simp [h] at hr

theorem eq_byte_of_segOfByte {b : Byte} {g : Seg} (h : segOfByte b = some g) : b = g.byte := by
  revert b
  cases g <;> decide

/-- A byte that does not end step 1 is of one of the four kinds of R56. -/
theorem kind_of_not_notPrefix {m : Mode} {b : Byte} (h : ¬ notPrefix m b) :
    (∃ g : Seg, b = g.byte) ∨ b = 0x67#8 ∨ isForbidden b = true ∨ (m = .mode64 ∧ isRex b = true) := by
  cases hg : segOfByte b with
  | some g => exact .inl ⟨g, eq_byte_of_segOfByte hg⟩
  | none =>
    refine .inr ?_
    by_contra hc
    simp_all [notPrefix]

theorem scan_rex_other {a : Scan} {b c : Byte} {t : List Byte} (h : isRex b = true) (hc : c ≠ 0xC4#8) :
    ∃ v, scanPrefixes .mode64 a (b :: c :: t) = .stop v := by
  obtain ⟨h1, h2, h3⟩ := isLegacy_of_isRex h
  rw [scanPrefixes]
  simp only [h1, h2, h3, h, hc, List.head?_cons, if_false, decide_true, Bool.and_self, if_true, Bool.false_eq_true]
  split <;> exact ⟨_, rfl⟩

/-- One byte of a scan that reaches an end: the end itself, REX before the end `C4H`, or a byte that leads to another scan. -/
theorem scan_cons_eq_done {m : Mode} {a c : Scan} {b : Byte} {t r : List Byte} (h : scanPrefixes m a (b :: t) = .done c r) :
    (c = a ∧ r = b :: t ∧ notPrefix m b) ∨
    (∃ u, t = 0xC4#8 :: u ∧ r = t ∧ c = { a with rex := true, count := a.count + 1 } ∧ m = .mode64 ∧ isRex b = true) ∨
    (∃ a', scanPrefixes m a' t = .done c r ∧ a'.count = a.count + 1 ∧ (a.Exact → a'.Exact) ∧
      ∀ u, scanPrefixes m a (b :: u) = scanPrefixes m a' u) := by
  by_cases hn : notPrefix m b
  · rw [scan_notPrefix hn] at h
    cases h
    exact .inl ⟨rfl, rfl, hn⟩
  rcases kind_of_not_notPrefix hn with ⟨g, rfl⟩ | rfl | hb | ⟨rfl, hb⟩
  · cases hs : a.seg with
    | some g' =>
      rw [scan_second_seg (by simp [hs])] at h
      cases h
    | none =>
      rw [scan_seg hs] at h
      refine .inr (.inr ⟨_, h, rfl, fun he hbad hrex => ?_, fun u => scan_seg hs⟩)
      have := he hbad hrex
      simp [Prefixes.len, hs] at this ⊢
      omega
  · cases h67 : a.addr67 with
    | true =>
      rw [scan_second_67 h67] at h
      cases h
    | false =>
      rw [scan_byte67 h67] at h
      refine .inr (.inr ⟨_, h, rfl, fun he hbad hrex => ?_, fun u => scan_byte67 h67⟩)
      have := he hbad hrex
      simp [Prefixes.len, h67] at this ⊢
      omega
  · rw [scan_forbidden hb] at h
    exact .inr (.inr ⟨_, h, rfl, fun _ => Scan.exact_of_bad rfl, fun u => scan_forbidden hb⟩)
  · refine .inr (.inl ?_)
    cases t with
    | nil =>
      obtain ⟨h1, h2, h3⟩ := isLegacy_of_isRex hb
      rw [scanPrefixes] at h
      simp [h1, h2, h3, hb] at h
    | cons d u =>
      by_cases hd : d = 0xC4#8
      · subst hd
        rw [scan_rex_C4 hb] at h
        cases h
        exact ⟨u, rfl, rfl, rfl, rfl, hb⟩
      · obtain ⟨v, hv⟩ := scan_rex_other (a := a) (t := u) hb hd
        rw [hv] at h
        cases h

/-- A scan that reaches an end: the prefixes it saw, the byte that ended it, and that no byte after that one mattered. -/
theorem scan_eq_done {m : Mode} {a c : Scan} {t r : List Byte} (h : scanPrefixes m a t = .done c r) :
    ∃ pre b u, t = pre ++ b :: u ∧ r = b :: u ∧ c.count = a.count + pre.length ∧ (a.Exact → c.Exact) ∧
      ∀ u', scanPrefixes m a (pre ++ b :: u') = .done c (b :: u') := by
  induction t generalizing a with
  | nil => cases h
  | cons b t ih =>
    rcases scan_cons_eq_done h with ⟨rfl, rfl, hn⟩ | ⟨u, rfl, rfl, rfl, rfl, hb⟩ | ⟨a', h', hcount, hexact, hstep⟩
    · exact ⟨[], b, t, rfl, rfl, rfl, id, fun u' => scan_notPrefix hn⟩
    · exact ⟨[b], 0xC4#8, u, rfl, rfl, rfl, fun _ => Scan.exact_of_rex rfl, fun u' => scan_rex_C4 hb⟩
    · obtain ⟨pre, d, u, rfl, rfl, hc, he, hu⟩ := ih h'
      refine ⟨b :: pre, d, u, rfl, rfl, ?_, he ∘ hexact, fun u' => (hstep _).trans (hu u')⟩
      rw [hc, hcount, List.length_cons]
      omega

/-- Step 1 stops with a refusal, with `NotVPERMILPS` or at the end of the bytes, never with a form. -/
theorem scan_ne_stop_form {m : Mode} {a : Scan} {t : List Byte} (i : Instr) :
    scanPrefixes m a t ≠ .stop (.form i) := by
  induction t generalizing a with
  | nil => simp [scanPrefixes]
  | cons b t ih =>
    rw [scanPrefixes]
    repeat' split
    all_goals simp [ih]

/-- The shape of accepted bytes: as many bytes as the form has prefixes, then `C4H`, then what the scan's end makes of
the bytes after it. -/
theorem decode_eq_form {m : Mode} {bytes : List Byte} {i : Instr} (h : decode m bytes = .form i) :
    ∃ pre a u, bytes = pre ++ 0xC4#8 :: u ∧ pre.length = i.prefixes.len ∧ a.count = i.prefixes.len ∧
      (∀ u', decode m (pre ++ 0xC4#8 :: u') = decodeVex m a u') ∧ decodeVex m a u = .form i := by
  cases hs : scanPrefixes m Scan.start bytes with
  | stop v =>
    rw [decode_of_stop hs] at h
    subst h
    exact absurd hs (scan_ne_stop_form _)
  | done a r =>
    obtain ⟨pre, b, u, rfl, rfl, hcount, hexact, hu⟩ := scan_eq_done hs
    have hb : b = 0xC4#8 := by
      by_contra hne
      simp [decode, hs, hne] at h
    subst hb
    rw [decode_of_scan hs] at h
    obtain ⟨hbad, hrex, hp⟩ := decodeVex_form_scan h
    have hc : a.count = i.prefixes.len := by
      rw [hp]
      exact hexact (fun _ _ => rfl) hbad hrex
    refine ⟨pre, a, u, rfl, ?_, hc, fun u' => decode_of_scan (hu u'), h⟩
    rw [← hc, hcount, Scan.start, Nat.zero_add]

/-- The first `ILEN` of accepted bytes are accepted themselves (R74). -/
theorem decode_form_reads {m : Mode} {bytes : List Byte} {i : Instr} (h : decode m bytes = .form i) :
    ∃ used u, bytes = used ++ u ∧ used.length = i.ilen ∧ decode m used = .form i := by
  obtain ⟨pre, a, t, rfl, hpre, -, hdec, hvex⟩ := decode_eq_form h
  obtain ⟨used, u, rfl, hlen, hused⟩ := decodeVex_form_reads hvex
  refine ⟨pre ++ 0xC4#8 :: used, u, by simp, ?_, (hdec used).trans hused⟩
  rw [List.length_append, List.length_cons, hpre, hlen]
  omega

/-! ### The high bits outside `Mode64` (R61) -/

/-- A VPERMILPS opcode in `Mode32` with a high bit set is refused at its length, once its operand bytes are there. -/
theorem decodeVex_mode32HighBit {a : Scan} {p1 p2 op modrm : Byte} {t r : List Byte} {row : Row} {rm : Rm}
    {imm : BitVec 8} (hx : p1.extractLsb' 6 2 = 3#2) (hrow : rowOf p1 op = some row) (hpp : p2.extractLsb' 0 2 = 1#2)
    (hrm : takeRm .mode32 (~~~(p1.extractLsb' 6 1)) (~~~(p1.extractLsb' 5 1)) modrm t = some (rm, r))
    (himm : takeImm row r = some imm) (hh : p1.extractLsb' 5 1 = 0#1 ∨ p2.extractLsb' 6 1 = 0#1) (ha : a.count ≤ 2) :
    decodeVex .mode32 a (p1 :: p2 :: op :: modrm :: t)
      = .refuse .mode32HighBit (a.count + 3 + 1 + 1 + rm.extraLen + row.immLen) := by
  have hr := rm.extraLen_le
  have hi := row.immLen_le
  rw [decodeVex_opcode (fun _ => hx) hrow hpp, if_neg (by simp), decodeOperands_of_parts hrm himm]
  exact judge_mode32HighBit (by omega) (by simpa [highBitSet] using hh)

/-- An encoding that `Mode64` admits and whose `R` and `X` are 0, with `B` or the top bit of the register that `vvvv` names
set: `Mode32` reads an operand of the same length. -/
theorem decode_encodeWith_mode32HighBit {i : Instr} {w : BitVec 1} {v : BitVec 4} (rest : List Byte)
    (hf : i.rm.fits .mode64 = true) (hR : i.dst.hi = 0#1) (hX : i.rm.fields.x = 0#1)
    (hh : i.rm.fields.b = 1#1 ∨ v.getLsbD 3 = false) :
    decode .mode32 (i.encodeWith w v ++ rest) = .refuse .mode32HighBit i.ilen := by
  have hx : i.p1.extractLsb' 6 2 = 3#2 := by
    rw [p1_RX, hR, hX]
    rfl
  obtain ⟨rm, hrm, hextra⟩ := takeRm_other_mode .mode32 (takeRm_fields i.rm i.dst.low (i.imm8.toList ++ rest) hf)
  have key : ∀ v : BitVec 4, v.getLsbD 3 = false → v.extractLsb' 3 1 = 0#1 := by decide
  have hbits : i.p1.extractLsb' 5 1 = 0#1 ∨ (i.p2 w v).extractLsb' 6 1 = 0#1 := by
    rw [p1_B, p2_vHigh]
    exact hh.imp (fun hb => by rw [hb]; rfl) (key v)
  have himm : i.row.immLen = i.immLen := by cases i <;> rfl
  rw [Instr.encodeWith_append, decode_prefixes_C4, Instr.body, decodeVex_mode32HighBit hx (i.rowOf_encoding ..)
    (p2_pp ..) (by rwa [p1_X, p1_B, not_not1, not_not1]) (i.takeImm_encoding rest) hbits i.prefixes.len_le, hextra, himm]
  rfl

end Sys2Proof
end

section
/-! SUPPORT. The effective address as an exact sum: 64-bit arithmetic is that of the integers modulo `2^64`, of which the
address size is a divisor (spec 30_encoding.md R68 to R72). -/

namespace Sys2Proof.Machine

/-- `g(i)` as a 64-bit word is `g(i)` as a number. -/
theorem State.truncA_readX (s : State) (p : Prefixes) (r : RegNum) :
    truncA (s.addrSize64 p) (s.readX r) = BitVec.ofInt 64 (s.gNat p r) := by
  rw [State.gNat, truncA, BitVec.ofInt_natCast]
  split
  · rw [Nat.mod_eq_of_lt (s.readX r).isLt, BitVec.ofNat_toNat, BitVec.setWidth_eq]
  · apply BitVec.eq_of_toNat_eq
    simp only [BitVec.toNat_setWidth, BitVec.toNat_ofNat]

theorem dispValue_eq_ofInt (d : Disp) : dispValue d = BitVec.ofInt 64 (dispInt d) := by cases d <;> rfl

theorem State.indexTerm_eq_ofInt (s : State) (p : Prefixes) (i : Option Index) :
    s.indexTerm (s.addrSize64 p) i = BitVec.ofInt 64 (s.indexNat p i) := by
  cases i with
  | none => rfl
  | some i =>
    rw [State.indexTerm, State.indexNat, State.truncA_readX, BitVec.ofInt_natCast, BitVec.ofInt_natCast]
    apply BitVec.eq_of_toNat_eq
    simp only [BitVec.toNat_shiftLeft, BitVec.toNat_ofNat, Nat.shiftLeft_eq, Nat.mod_mul_mod]

theorem State.nextIp_eq_ofInt (s : State) (len : Nat) : s.nextIp len = BitVec.ofInt 64 (s.ip.toNat + len) := by
  rw [BitVec.ofInt_add, BitVec.ofInt_natCast, BitVec.ofInt_natCast, BitVec.ofNat_toNat, BitVec.setWidth_eq, State.nextIp]

/-- The effective address is the exact sum as a 64-bit word, truncated to the address size. -/
theorem State.effAddr_eq_ofInt (s : State) (p : Prefixes) (len : Nat) (m : MemForm) :
    s.effAddr p len m = truncA (s.addrSize64 p) (BitVec.ofInt 64 (s.exactSum p len m)) := by
  have hsext (d : BitVec 32) : d.signExtend 64 = BitVec.ofInt 64 d.toInt := rfl
  rw [State.effAddr.eq_def, State.exactSum.eq_def]
  cases m <;>
    simp only [BitVec.ofInt_add, State.truncA_readX, State.indexTerm_eq_ofInt, State.nextIp_eq_ofInt, dispValue_eq_ofInt,
      hsext]

/-- Truncating a 64-bit word to the address size takes the number modulo `2^A`. -/
theorem truncA_ofInt_toNat (a64 : Bool) (n : Int) :
    ((truncA a64 (BitVec.ofInt 64 n)).toNat : Int) = n % (if a64 then 2 ^ 64 else 2 ^ 32) := by
  cases a64 <;> simp [truncA] <;> omega

end Sys2Proof.Machine
end

section
/-! SUPPORT. The encoder and the decoder agree, what accepted bytes are, the verdicts on encodings with a reserved field or
with other bytes among their prefixes, and the effective address (spec 30_encoding.md R55 to R79). -/

namespace Sys2Proof

/-- Settles O1: an instruction well formed in the mode fits it, and its address size is not 16. -/
theorem decodeReadsBackEncode : Obligations.DecodeReadsBackEncode := by
  intro m i rest h
  simp only [Instr.wf, Bool.and_eq_true, decide_eq_true_eq, Bool.not_eq_true'] at h
  obtain ⟨⟨hf, hm⟩, ha⟩ := h
  rw [decode_encode_of_fits rest hf hm, ha]
  rfl

/-- Settles O2: the lengths of the parts added up. -/
theorem encodingHasIlenBytes : Obligations.EncodingHasIlenBytes := by
  intro i
  have himm : i.imm8.toList.length = i.immLen := by cases i <;> rfl
  simp only [encode, Instr.encodeWith, List.length_append, Prefixes.bytes_length, Rm.tail_length, himm, Instr.ilen,
    List.length_cons, List.length_nil]

/-- Settles O3: the bytes after `C4H` give the well-formedness, the bytes read the length. -/
theorem decodedFormIsWellFormed : Obligations.DecodedFormIsWellFormed := by
  intro m bytes i h
  obtain ⟨pre, a, u, -, -, -, -, hvex⟩ := decode_eq_form h
  obtain ⟨used, t, rfl, hlen, -⟩ := decode_form_reads h
  exact ⟨decodeVex_form_wf hvex, by simp [hlen]⟩

/-- Settles O4: the bytes read are accepted themselves, and more bytes do not change a verdict. -/
theorem decodeReadsOnlyIlenBytes : Obligations.DecodeReadsOnlyIlenBytes := by
  intro m bytes rest i h
  obtain ⟨used, u, rfl, hlen, hused⟩ := decode_form_reads h
  rw [← hlen, List.take_left', decode_append rest (by simp [hused]), hused]
  rfl

/-- Settles O5: step 5e, on an encoding and on the bytes after `C4H` of an accepted form. -/
theorem vexWSetIsUd : Obligations.VexWSetIsUd := by
  refine ⟨fun m i rest hf hm => decode_encodeWith_ud rest hf hm (Instr.storedV_high hf) (.inl rfl),
    fun m i pre p1 p2 rest hpre h => ?_⟩
  obtain ⟨pre', a, u, he, hpre', hcount, hdec, hvex⟩ := decode_eq_form h
  obtain ⟨rfl, hu⟩ := List.append_inj he (hpre.trans hpre'.symm)
  cases hu
  rw [hdec, decodeVex_setW hvex hcount]

/-- Settles O6: the immediate forms by the check of step 5f; in the variable forms the stored field is that of the
register it names. -/
theorem reservedVvvvIsUd : Obligations.ReservedVvvvIsUd := by
  refine ⟨fun m i v rest hf hm himm hne hv => ?_, fun m p dst any v rm rest h => ⟨?_, ?_⟩⟩
  · exact decode_encodeWith_ud rest hf hm hv (.inr ⟨by simp [Instr.row, himm], hne⟩)
  · exact decodeReadsBackEncode m (.var128 p dst v rm) rest h
  · exact decodeReadsBackEncode m (.var256 p dst v rm) rest h

/-- Settles O13: the forbidden bytes are counted by step 1, and the length is judged before them. -/
theorem overlongIsRefused : Obligations.OverlongIsRefused := by
  intro m i pre n rest hf hm hpre hlen hn
  have hscan := scan_interleaved (t := i.body 0#1 i.storedV rest) (notPrefix_C4 m) pre i.prefixes Scan.start hpre
    (fun _ => rfl) (fun _ => rfl)
  have hcount : Scan.start.count + pre.length = n + i.prefixes.len := by
    simp only [Scan.start]
    omega
  rw [encode_drop_prefixes, decode_of_scan hscan]
  split
  · rw [decodeVex_body_of_fits rest hf hm hcount]
    exact judge_tooLong ‹_›
  · exact decodeVex_body_ud rest hf hm (Instr.storedV_high hf) hcount (by omega) (.inl (by simp [hlen, hn]))

/-- Settles O7: one forbidden byte leaves the length at most 14; a REX byte is accepted before `C4H` only. -/
theorem forbiddenByteIsUd : Obligations.ForbiddenByteIsUd := by
  refine ⟨fun m i b before after rest hf hm hb hpre => ?_, fun i b rest hf hb => ?_⟩
  · have hl := i.ilen_bounds
    have hlen : (before ++ b :: after).length = i.prefixes.len + 1 := by
      rw [← i.prefixes.bytes_length, hpre]
      simp only [List.length_append, List.length_cons, Nat.add_assoc]
    have h := overlongIsRefused m i (before ++ b :: after) 1 rest hf hm
      (i.prefixes.filter_insert_forbidden (isForbidden_iff.mpr hb) hpre) hlen Nat.one_pos
    rw [if_neg (by omega), Nat.add_comm] at h
    simpa using h
  · have hl := i.ilen_bounds
    have hscan : scanPrefixes .mode64 Scan.start (i.prefixes.bytes ++ b :: 0xC4#8 :: i.body 0#1 i.storedV rest) = _ :=
      (scan_start_append i.prefixes _).trans (scan_rex_C4 (by simpa [isRex] using hb))
    have h := decodeVex_body_ud (a := { Scan.of i.prefixes with rex := true, count := i.prefixes.len + 1 }) (w := 0#1)
      (v := i.storedV) rest hf (by simp) (by simp) (Nat.add_comm ..) (by omega) (.inr (.inl rfl))
    rw [encode_drop_prefixes, decode_of_scan hscan, Nat.add_comm i.ilen]
    exact h

/-- Settles O8: the shape of accepted bytes; `C5H` ends step 1 and is not `C4H`. -/
theorem twoByteVexIsNotVpermilps : Obligations.TwoByteVexIsNotVpermilps := by
  refine ⟨fun m bytes i h => ?_, fun m p rest => ?_⟩
  · obtain ⟨pre, a, u, rfl, hpre, -, -, -⟩ := decode_eq_form h
    rw [← hpre, List.getElem?_append_right (Nat.le_refl _), Nat.sub_self, List.getElem?_cons_zero]
  · simp [decode, scan_start_prefixes p (notPrefix_C5 m)]

/-- Settles O9: the map and opcode byte name no row, or `pp` is another. -/
theorem otherOpcodeIsNotVpermilps : Obligations.OtherOpcodeIsNotVpermilps := by
  intro m p p1 p2 op rest h1 h2
  rw [decode_prefixes_C4]
  refine decodeVex_other fun row hrow hpp => ?_
  rcases exists_rowOf_iff.mp ⟨row, hrow⟩ with ⟨hmap, hop⟩ | ⟨hmap, hop⟩
  · exact h1 ⟨hmap, hpp, hop⟩
  · exact h2 ⟨hmap, hpp, hop⟩

/-- Settles O10: LES before step 4; then step 5c, with `i.rm` read in `Mode32` as an operand of the same length, or with an
operand that seven bytes are enough for. -/
theorem mode32HighBits : Obligations.Mode32HighBits := by
  refine ⟨fun p p1 p2 op rest hx => ?_, fun i w v rest hf hR hX hh => ?_, fun p p1 p2 op rest hx hpp hop hh hlen => ?_⟩
  · rw [decode_prefixes_C4, decodeVex_les (by simp) hx]
  · exact decode_encodeWith_mode32HighBit rest (Instr.fits_parts hf).2 hR hX hh
  · obtain ⟨row, hrow⟩ := exists_rowOf_iff.mpr hop
    match rest, hlen with
    | modrm :: t, hlen =>
      obtain ⟨rm, r, imm, hrm, himm⟩ := operands_total .mode32 (~~~(p1.extractLsb' 6 1)) (~~~(p1.extractLsb' 5 1)) modrm
        row (Nat.le_of_succ_le_succ hlen)
      have hr := rm.extraLen_le
      have hi := row.immLen_le
      have hp := p.len_le
      have hcount : (Scan.of p).count = p.len := rfl
      exact ⟨_, by omega, by omega,
        (decode_prefixes_C4 p _).trans (decodeVex_mode32HighBit hx hrow hpp hrm himm hh hp)⟩

/-- Settles O11: the check of step 5g on an encoding that fits, and step 5a. -/
theorem sixteenBitFormsAreRefused : Obligations.SixteenBitFormsAreRefused := by
  refine ⟨fun i rest hf h67 hmem => ?_, fun p p1 p2 op rest hx hpp hop => ?_⟩
  · rw [decode_encode_of_fits rest hf (by simp), if_pos (by simp [Instr.addr16, h67, hmem])]
  · obtain ⟨row, hrow⟩ := exists_rowOf_iff.mpr hop
    rw [decode_prefixes_C4, decodeVex_opcode (fun _ => hx) hrow hpp, if_pos rfl]

/-- Settles O12: step 1 stops at the second byte of a kind, and at a byte of R56's table after REX. -/
theorem repeatedPrefixIsRefused : Obligations.RepeatedPrefixIsRefused := by
  refine ⟨fun m p g rest h => ?_, fun m p rest h => ?_, fun p b c rest hb hc => ?_⟩
  · exact decode_of_stop ((scan_start_append p _).trans (scan_second_seg h))
  · exact decode_of_stop ((scan_start_append p _).trans (scan_second_67 h))
  · exact decode_of_stop ((scan_start_append p _).trans (scan_rex_prefix (by simpa [isRex] using hb) hc))

/-- Settles O14: the decoder evaluated on each of the six words. -/
theorem specWordsDecode : Obligations.SpecWordsDecode := by
  refine ⟨?_, ?_, ?_, ?_, ?_, ?_⟩ <;> rfl

end Sys2Proof

namespace Sys2Proof.Machine

/-- Settles O45: the 64-bit word of the exact sum, truncated. -/
theorem effectiveAddressIsSumModuloSize : Obligations.EffectiveAddressIsSumModuloSize := by
  intro s p len m
  rw [State.effAddr_eq_ofInt, truncA_ofInt_toNat]

end Sys2Proof.Machine
end

section
/-! SUPPORT. What a form computes, as one function of SRC1 and the selectors (spec 40_vpermilps.md R85 to R97): the
assignments of each form, the lanes, the ignored control bits, the immediate against the variable form, and the destination
written whole. -/

namespace Sys2Proof.Machine

/-! ### The result from SRC1 and the selectors (R86 to R90) -/

/-- The selector of destination element `k`: a field of the immediate, the same in both lanes, or bits 1:0 of element `k` of
the control operand (R67, R94). -/
def selectorOf (i : Instr) (src : Vec) (k : Nat) : BitVec 2 :=
  match i.imm8 with
  | some imm => imm.extractLsb' (2 * (k % 4)) 2
  | none => src.extractLsb' (32 * k) 2

/-- The result of a form of width `w` on SRC1 with selector `sel k` for element `k`. -/
def permuteVec (w : Width) (src1 : Vec) (sel : Nat → BitVec 2) : Vec :=
  fromLanes w (permuteLane (lane1 src1) (sel 4) (sel 5) (sel 6) (sel 7))
    (permuteLane (lane0 src1) (sel 0) (sel 1) (sel 2) (sel 3))

theorem varResult_eq_permuteVec (w : Width) (src1 ctl : Vec) :
    varResult w src1 ctl = permuteVec w src1 fun k => ctl.extractLsb' (32 * k) 2 := by
  simp [varResult, permuteVec, varLane, lane0_field, lane1_field]

/-- A 128-bit form reads the low lane of SRC1 only, so its view of the register gives what the register gives (R14). -/
theorem permuteVec_readVec (s : State) (w : Width) (n : RegNum) (sel : Nat → BitVec 2) :
    permuteVec w (s.readVec w n) sel = permuteVec w (s.readV n) sel := by
  cases w with
  | w128 => simp only [permuteVec, fromLanes, lane0_readVec]
  | w256 => rfl

/-- Each of the four forms is the one permutation, of its SRC1 by its selectors. -/
theorem resultOf_eq_permuteVec (i : Instr) (s : State) (src : Vec) :
    resultOf i s src = permuteVec i.width (src1Of i s src) (selectorOf i src) := by
  cases i with
  | var128 p d v m => exact (varResult_eq_permuteVec ..).trans (permuteVec_readVec ..)
  | imm128 p d m imm => rfl
  | var256 p d v m => exact (varResult_eq_permuteVec ..).trans (permuteVec_readVec ..)
  | imm256 p d m imm => rfl

/-- The result depends on the selectors of the form's own elements only. -/
theorem permuteVec_congr {w : Width} {sel sel' : Nat → BitVec 2} (src1 : Vec)
    (h : ∀ k < elemCount w, sel k = sel' k) : permuteVec w src1 sel = permuteVec w src1 sel' := by
  cases w with
  | w128 =>
    have h4 : ∀ k < 4, sel k = sel' k := h
    simp [permuteVec, fromLanes, h4]
  | w256 =>
    have h8 : ∀ k < 8, sel k = sel' k := h
    simp [permuteVec, h8]

/-! ### The elements of the result (R85, R95) -/

theorem elem_permuteLane (src : Lane) (sel : Nat → BitVec 2) {j : Nat} (hj : j < 4) :
    (permuteLane src (sel 0) (sel 1) (sel 2) (sel 3)).extractLsb' (32 * j) 32 = select4 src (sel j) := by
  match j, hj with
  | 0, _ => exact Lane.elem0 ..
  | 1, _ => exact Lane.elem1 ..
  | 2, _ => exact Lane.elem2 ..
  | 3, _ => exact Lane.elem3 ..

/-- Element `k` is selected from lane `k / 4` of SRC1. -/
theorem elem_permuteVec (w : Width) (src1 : Vec) (sel : Nat → BitVec 2) (k : Nat) (hk : k < elemCount w) :
    elem (permuteVec w src1 sel) k = select4 (src1.extractLsb' (128 * (k / 4)) 128) (sel k) := by
  rcases Nat.lt_or_ge k 4 with hlow | hhigh
  · rw [Nat.div_eq_of_lt hlow, elem, permuteVec, fromLanes_low _ _ _ _ _ (by omega), elem_permuteLane _ sel hlow]
    rfl
  · obtain ⟨j, rfl⟩ := Nat.exists_eq_add_of_le hhigh
    cases w with
    | w128 => simp [elemCount] at hk
    | w256 =>
      have hj : j < 4 := by simp only [elemCount] at hk; omega
      have hlane : (4 + j) / 4 = 1 := by omega
      rw [hlane, elem, Nat.mul_add, permuteVec, fromLanes_high_w256, elem_permuteLane _ (fun n => sel (4 + n)) hj]
      rfl

/-- A selector picks one of the four elements, the same one in every lane. -/
theorem select4_eq_field (c : BitVec 2) : ∃ j < 4, ∀ src : Lane, select4 src c = src.extractLsb' (32 * j) 32 := by
  by_cases h0 : c = 0#2
  · exact ⟨0, by decide, fun src => by rw [select4, if_pos h0]⟩
  by_cases h1 : c = 1#2
  · exact ⟨1, by decide, fun src => by rw [select4, if_neg h0, if_pos h1]⟩
  by_cases h2 : c = 2#2
  · exact ⟨2, by decide, fun src => by rw [select4, if_neg h0, if_neg h1, if_pos h2]⟩
  · exact ⟨3, by decide, fun src => by rw [select4, if_neg h0, if_neg h1, if_neg h2]⟩

/-! ### A ready instruction completes (R86) -/

/-- A ready instruction whose operand has a value completes with the permutation of its SRC1. -/
theorem Ready.exec_permuteVec {i : Instr} {s : State} {src : Vec} (h : Ready i s) (hs : SourceIs i s src) :
    Machine.exec i s = .next (After i s (permuteVec i.width (src1Of i s src) (selectorOf i src))) := by
  rw [h.exec hs, resultOf_eq_permuteVec]
  rfl

theorem readV_after_dst (s : State) (i : Instr) (r : Vec) : (After i s r).readV i.dst = r :=
  s.complete_readV_dst i r

/-! ### The assignments of the four forms (R87 to R90) -/

/-- Settles O15: the four elements of lane 0, and zeros above them. -/
theorem var128Result : Obligations.Var128Result := by
  intro p dst src1 rm s src2 hready hsrc
  have helem := elem_permuteVec .w128 (s.readV src1) (selectorOf (.var128 p dst src1 rm) src2)
  exact ⟨_, hready.exec_permuteVec hsrc, helem 0 (by decide), helem 1 (by decide), helem 2 (by decide),
    helem 3 (by decide), fromLanes_high_w128 _ _⟩

/-- Settles O16: as O15, with the four fields of the immediate. -/
theorem imm128Result : Obligations.Imm128Result := by
  intro p dst rm imm s src1 hready hsrc
  have helem := elem_permuteVec .w128 src1 (selectorOf (.imm128 p dst rm imm) src1)
  exact ⟨_, hready.exec_permuteVec hsrc, helem 0 (by decide), helem 1 (by decide), helem 2 (by decide),
    helem 3 (by decide), fromLanes_high_w128 _ _⟩

/-- Settles O17: the four elements of each lane. -/
theorem var256Result : Obligations.Var256Result := by
  intro p dst src1 rm s src2 hready hsrc
  have helem := elem_permuteVec .w256 (s.readV src1) (selectorOf (.var256 p dst src1 rm) src2)
  exact ⟨_, hready.exec_permuteVec hsrc, helem 0 (by decide), helem 1 (by decide), helem 2 (by decide),
    helem 3 (by decide), helem 4 (by decide), helem 5 (by decide), helem 6 (by decide), helem 7 (by decide)⟩

/-- Settles O18: as O17, where elements `k` and `k + 4` have one field of the immediate. -/
theorem imm256Result : Obligations.Imm256Result := by
  intro p dst rm imm s src1 hready hsrc
  have helem := elem_permuteVec .w256 src1 (selectorOf (.imm256 p dst rm imm) src1)
  exact ⟨_, hready.exec_permuteVec hsrc, helem 0 (by decide), helem 1 (by decide), helem 2 (by decide),
    helem 3 (by decide), helem 4 (by decide), helem 5 (by decide), helem 6 (by decide), helem 7 (by decide)⟩

/-! ### Lanes and control bits (R91, R94, R95) -/

/-- Settles O21: element `k` is selected from lane `k / 4` of SRC1, whose element `j` is SRC1's element `4 * (k / 4) + j`. -/
theorem elementsStayInTheirLane : Obligations.ElementsStayInTheirLane := by
  intro i s src hready hsrc
  refine ⟨_, hready.exec_permuteVec hsrc, fun k hk => ?_⟩
  obtain ⟨j, hj, hsel⟩ := select4_eq_field (selectorOf i src k)
  refine ⟨j, hj, ?_⟩
  rw [readV_after_dst, elem_permuteVec _ _ _ _ hk, hsel, field_field _ _ _ _ _ (by omega), elem, Nat.mul_add,
    ← Nat.mul_assoc]

/-- Two ready instructions of one width, with the same SRC1 and the same selectors, complete with the same destination. -/
theorem Ready.exec_same_dst {i i' : Instr} {s s' : State} {src src' : Vec} (h : Ready i s) (h' : Ready i' s')
    (hs : SourceIs i s src) (hs' : SourceIs i' s' src') (hw : i.width = i'.width)
    (h1 : src1Of i s src = src1Of i' s' src')
    (hsel : ∀ k < elemCount i.width, selectorOf i src k = selectorOf i' src' k) :
    ∃ t t', Machine.exec i s = .next t ∧ Machine.exec i' s' = .next t' ∧ t.readV i.dst = t'.readV i'.dst := by
  refine ⟨_, _, h.exec_permuteVec hs, h'.exec_permuteVec hs', ?_⟩
  rw [readV_after_dst, readV_after_dst, ← hw, ← h1, permuteVec_congr _ hsel]

theorem selectorOf_of_vvvv {i : Instr} {v : RegNum} (h : i.vvvv = some v) (src : Vec) (k : Nat) :
    selectorOf i src k = src.extractLsb' (32 * k) 2 := by
  cases i with
  | var128 p d a m => rfl
  | imm128 p d m imm => simp [Instr.vvvv] at h
  | var256 p d a m => rfl
  | imm256 p d m imm => simp [Instr.vvvv] at h

/-- Settles O22: bits 1:0 of the control elements are the selectors. -/
theorem ignoredControlBits : Obligations.IgnoredControlBits := by
  intro i s s' ctl ctl' hready hready' hsrc hsrc' v hv hsrc1 hctl
  refine hready.exec_same_dst hready' hsrc hsrc' rfl (by simp [src1Of, hv, hsrc1]) fun k hk => ?_
  rw [selectorOf_of_vvvv hv, selectorOf_of_vvvv hv, hctl k hk]

/-- Bits 1:0 of an element that is a zero-extended selector are the selector (R91). -/
theorem field_of_elem_eq_setWidth {v : Vec} {k : Nat} {c : BitVec 2} (h : elem v k = c.setWidth 32) :
    v.extractLsb' (32 * k) 2 = c := by
  calc v.extractLsb' (32 * k) 2 = (elem v k).extractLsb' 0 2 := (field_field v (32 * k) 32 0 2 (by decide)).symm
    _ = c := by rw [h, BitVec.extractLsb'_setWidth_of_le (by decide), BitVec.extractLsb'_eq_self]

/-- Settles O23: the control elements are the selectors of the immediate. -/
theorem immediateEqualsVariable : Obligations.ImmediateEqualsVariable :=
  ⟨fun _ _ _ _ _ _ himm hvar hctl => himm.exec_same_dst hvar rfl rfl rfl rfl fun k hk =>
      (field_of_elem_eq_setWidth (hctl k hk)).symm,
    fun _ _ _ _ _ _ himm hvar hctl => himm.exec_same_dst hvar rfl rfl rfl rfl fun k hk =>
      (field_of_elem_eq_setWidth (hctl k hk)).symm⟩

/-! ### The destination written whole (R96) -/

theorem permuteVec_w128_high (src1 : Vec) (sel : Nat → BitVec 2) :
    (permuteVec .w128 src1 sel).extractLsb' 128 128 = 0#128 :=
  fromLanes_high_w128 _ _

theorem State.writeV_writeV (s : State) (n : RegNum) (old val : Vec) :
    (s.writeV n old).writeV n val = s.writeV n val := by
  simp [State.writeV]

/-- No check before the operand looks at a vector register. -/
theorem State.gate_writeV (s : State) (n : RegNum) (old : Vec) (i : Instr) : (s.writeV n old).gate i = s.gate i := rfl

theorem State.physFrom_writeV (s : State) (n : RegNum) (old : Vec) (lin : Addr) (len k : Nat) :
    (s.writeV n old).physFrom lin len k = s.physFrom lin len k := by
  induction len generalizing k with
  | zero => rfl
  | succ len ih =>
    rw [State.physFrom, State.physFrom, ih]
    rfl

theorem State.seenBytes_writeV (s : State) (n : RegNum) (old : Vec) (k : Nat) (ps : List Addr) :
    (s.writeV n old).seenBytes k ps = s.seenBytes k ps := by
  induction ps generalizing k with
  | nil => rfl
  | cons p ps ih =>
    rw [State.seenBytes, ih]
    rfl

/-- Reading a memory operand does not look at a vector register. -/
theorem State.readMemory_writeV (s : State) (n : RegNum) (old : Vec) (g : Seg) (ea : Addr) (len : Nat) :
    (s.writeV n old).readMemory g ea len = s.readMemory g ea len := by
  simp only [State.readMemory, State.physFrom_writeV, State.seenBytes_writeV]
  rfl

theorem State.readRm_writeV {s : State} {n : RegNum} {old : Vec} {i : Instr} (h : i.rm ≠ .reg n) :
    (s.writeV n old).readRm i = s.readRm i := by
  cases hr : i.rm with
  | reg r =>
    have hne : r ≠ n := fun e => h (hr.trans (congrArg Rm.reg e))
    cases hw : i.width <;> simp [State.readRm, hr, State.readVec, hw, State.readV_writeV_other _ _ _ _ hne]
  | mem m =>
    simp only [State.readRm, hr, State.readMemory_writeV]
    rfl

theorem resultOf_writeV {s : State} {n : RegNum} {old : Vec} {i : Instr} (h : i.vvvv ≠ some n) (src : Vec) :
    resultOf i (s.writeV n old) src = resultOf i s src := by
  have h1 : src1Of i (s.writeV n old) src = src1Of i s src := by
    cases hv : i.vvvv with
    | none => simp [src1Of, hv]
    | some v =>
      have hne : v ≠ n := fun e => h (hv.trans (congrArg some e))
      simp [src1Of, hv, State.readV_writeV_other _ _ _ _ hne]
  rw [resultOf_eq_permuteVec, resultOf_eq_permuteVec, h1]

/-- Settles O20: zeros above lane 0; and the one write to the destination replaces whatever it held. -/
theorem destinationWrittenWhole : Obligations.DestinationWrittenWhole := by
  refine ⟨fun i s t h hw => ?_, fun i s t old h hv hrm => ?_⟩
  · obtain ⟨-, src, -, rfl⟩ := exec_eq_next h
    rw [State.complete_readV_dst, resultOf_eq_permuteVec, hw, permuteVec_w128_high]
  · obtain ⟨hg, src, hr, rfl⟩ := exec_eq_next h
    rw [exec_of_parts ((s.gate_writeV i.dst old i).trans hg) ((State.readRm_writeV hrm).trans hr),
      resultOf_writeV hv, State.complete, State.writeV_writeV]
    rfl

end Sys2Proof.Machine
end

section
/-! SUPPORT. A step runs what the fetched bytes decode to, and the bytes placed in a launched machine are fetched (spec
40_vpermilps.md R86, 20_memory.md R38, 70_reset_and_hazards.md R131, R132). -/

namespace Sys2Proof.Machine

/-- Settles O52: the verdict on the fetched bytes is the form. -/
theorem stepRunsDecodedInstruction : Obligations.StepRunsDecodedInstruction := by
  intro s bytes i hquiet htext hfetch hdec
  rw [step_of_fetches hquiet htext hfetch (by simp [hdec]), hdec]
  rfl

/-! ### The bytes that are written are read back -/

theorem toNat_add_ofNat {a : Addr} {k : Nat} (h : a.toNat + k < 2 ^ 64) :
    (a + BitVec.ofNat 64 k).toNat = a.toNat + k := by
  rw [BitVec.toNat_add, BitVec.toNat_ofNat]
  omega

/-- Bytes written from `a` on leave those below `a` alone. -/
theorem Memory.read_writeBytes_below {m : Memory} (h : m.wf) {a : Addr} {bs : List Byte}
    (hend : a.toNat + bs.length < 2 ^ 64) {b : Nat} (hb : b < a.toNat) : (m.writeBytes a bs).read b = m.read b := by
  induction bs generalizing m a with
  | nil => rfl
  | cons c cs ih =>
    rw [List.length_cons] at hend
    have hnext : (a + 1#64).toNat = a.toNat + 1 := toNat_add_ofNat (by omega)
    rw [Memory.writeBytes, ih (Memory.write_wf h _ _) (by omega) (by omega), Memory.read_write h, if_neg (by omega)]

/-- The bytes written from `a` on are read back. -/
theorem Memory.read_writeBytes {m : Memory} (h : m.wf) {a : Addr} {bs : List Byte}
    (hend : a.toNat + bs.length < 2 ^ 64) {k : Nat} (hk : k < bs.length) :
    (m.writeBytes a bs).read (a.toNat + k) = bs[k] := by
  induction bs generalizing m a k with
  | nil => simp at hk
  | cons c cs ih =>
    have hwf := Memory.write_wf h a.toNat c
    rw [List.length_cons] at hend hk
    have hnext : (a + 1#64).toNat = a.toNat + 1 := toNat_add_ofNat (by omega)
    rw [Memory.writeBytes]
    cases k with
    | zero =>
      rw [Memory.read_writeBytes_below hwf (by omega) (by omega), Memory.read_write h, if_pos (Nat.add_zero _),
        List.getElem_cons_zero]
    | succ k =>
      rw [show a.toNat + (k + 1) = (a + 1#64).toNat + k by omega, ih hwf (by omega) (by omega), List.getElem_cons_succ]

/-! ### A launched machine fetches the bytes at `rip` (R38, R131) -/

section
variable (s : State) (bytes : List Byte)

theorem State.place_mode : (s.place bytes).mode = .mode64 := by
  simp [State.mode, State.pe, State.vm, State.lma, State.place, State.launch]

theorem State.place_translate (lin : Addr) (kind : AccessKind) : (s.place bytes).translate lin kind = .phys lin := by
  rw [State.translate]
  split <;> rfl

theorem State.place_codeLinear (off : Addr) : (s.place bytes).codeLinear off = off := by
  simp [State.codeLinear, State.segBase, State.place_mode]

theorem State.place_quiet : LQuiet (s.place bytes) := by
  refine ⟨rfl, ?_⟩
  simp [State.tf, State.place, State.launch]

theorem State.place_unwritten : TextUnwritten (s.place bytes) := rfl

end

/-- An address below `2^47` is canonical, with 48 or with 57 implemented bits (R40). -/
theorem State.canonical_of_lt (s : State) {a : Addr} (h : a.toNat < 2 ^ 47) : s.canonical a = true := by
  have h0 : a.toNat / 2 ^ (s.params.linBits.width - 1) = 0 := by
    cases s.params.linBits <;> simp only [LinBits.width] <;> omega
  simp [State.canonical, h0]

/-- In `Mode64` a byte within the address space, canonical and translated, is fetched (R17, R38). -/
theorem State.fetchByte_of_mode64 {s : State} {k : Nat} {p : Addr} (hm : s.mode = .mode64)
    (hk : s.ip.toNat + k < 2 ^ 64) (hc : s.canonical (s.ip + BitVec.ofNat 64 k) = true)
    (hp : s.translate (s.codeLinear (s.ip + BitVec.ofNat 64 k)) .fetch = .phys p) :
    s.fetchByte k = .next (s.mem.read p.toNat) := by
  rw [State.fetchByte, if_neg (by simpa [hc] using fun _ => hk), if_neg (by simp [hm]),
    if_neg (by simp [hm]), hp]

/-- The bytes placed at `rip` are fetched there, where they end below `2^47`. -/
theorem State.place_fetches {s : State} {bytes : List Byte} (hwf : s.mem.wf)
    (hend : s.rip.toNat + bytes.length ≤ 2 ^ 47) : Fetches (s.place bytes) bytes := by
  intro k hk
  have hm := s.place_mode bytes
  have hip : (s.place bytes).ip = s.rip := State.ip_of_mode64 hm
  have hoff : (s.rip + BitVec.ofNat 64 k).toNat = s.rip.toNat + k := toNat_add_ofNat (by omega)
  rw [State.fetchByte_of_mode64 hm (by rw [hip]; omega) (State.canonical_of_lt _ (by rw [hip]; omega))
    ((s.place_translate bytes ..).trans (congrArg _ (s.place_codeLinear bytes _))), hip, hoff]
  exact congrArg _ (Memory.read_writeBytes hwf (by omega) hk)

/-- Settles O53: the encoding ends below `2^47` and decodes to the instruction. -/
theorem placedInstructionRuns : Obligations.PlacedInstructionRuns := by
  intro i hwf
  have hdec := decodeReadsBackEncode .mode64 i [] hwf
  rw [List.append_nil] at hdec
  have hlen : (encode i).length ≤ 13 := (encodingHasIlenBytes i).trans_le i.ilen_bounds.2
  have hrip : State.reset.rip.toNat = 0xFFF0 := rfl
  exact stepRunsDecodedInstruction _ _ i (State.place_quiet _ _) (State.place_unwritten _ _)
    (State.place_fetches State.reset_mem_wf (by omega)) (by rw [State.place_mode, hdec])

end Sys2Proof.Machine
end

section
/-! SUPPORT. The enabling state decides what an instruction that passes the checks before it answers (spec 60_exceptions.md
R103 to R107, R113, R126), and with a register operand the privilege level plays no part (R120). -/

namespace Sys2Proof.Machine

/-! ### The order of the checks (R113) -/

/-- Where the instruction is not refused itself, the enabling state comes next, before the operand. -/
theorem exec_of_refusal_none {i : Instr} {s : State} (h : s.refusal i = none) :
    exec i s = (enabled s).andThen fun _ => (s.readRm i).andThen fun src => .next (s.complete i (resultOf i s src)) := by
  rw [exec_eq_runForm, runForm, State.gate, h]

/-- In real-address and virtual-8086 mode an instruction that fits is not refused. -/
theorem State.refusal_of_realOrV86 {i : Instr} {s : State} (hm : s.mode = .modeReal ∨ s.mode = .modeV86)
    (hf : i.fits s.mode = true) : s.refusal i = none := by
  rcases hm with hm | hm <;> rw [hm] at hf <;> simp [State.refusal, State.ripWraps, Instr.addr16, hm, hf]

/-! ### What the enabling state answers -/

theorem enabled_of_realOrV86 {s : State} (h : s.mode = .modeReal ∨ s.mode = .modeV86) : enabled s = .fault .ud := by
  rw [enabled, if_pos (by simpa using h), raise_eq]

/-- Any part of `L_AvxEnabled` that fails is `#UD` (R104, R106). -/
theorem enabled_of_not_avx {s : State} (hm : LMode s) (h : ¬ LAvxEnabled s) : enabled s = .fault .ud := by
  rw [enabled, if_neg (by simp [hm.not_ud])]
  by_cases hstate : s.osxsave = false ∨ s.xcr0Avx ≠ 3#2
  · rw [if_pos (by simpa using hstate), raise_eq]
  · have hcpuid : s.params.cpuidAvx = false := by
      by_contra hcpuid
      exact h ⟨by simpa using hcpuid, by simpa using hstate⟩
    rw [if_neg (by simpa using hstate), if_pos (by simp [hcpuid]), raise_eq]

/-- With the AVX state enabled, `CR0.EM` comes before `CR0.TS` (R126, R107). -/
theorem enabled_of_avx {s : State} (hm : LMode s) (h : LAvxEnabled s) :
    enabled s = if s.em then .refused .cr0Em else if s.ts then .fault .nm else .next () := by
  obtain ⟨hcpuid, hosxsave, hxcr0⟩ := h
  simp [enabled, hm.not_ud, hcpuid, hosxsave, hxcr0]

/-! ### The exceptions of the enabling state -/

theorem Admitted.exec_of_not_avx {i : Instr} {s : State} (ha : Admitted i s) (h : ¬ LAvxEnabled s) :
    exec i s = .fault .ud := by
  rw [exec_of_refusal_none ha.refusal, enabled_of_not_avx ha.mode h, Out.andThen_fault]

/-- Settles O30: `enabled` answers `#UD`, and a step that completes has executed an instruction. -/
theorem udInRealAndV86 : Obligations.UdInRealAndV86 := by
  refine ⟨fun i s hm hf => ?_, fun s t hm hstep => ?_⟩
  · rw [exec_of_refusal_none (State.refusal_of_realOrV86 hm hf), enabled_of_realOrV86 hm, Out.andThen_fault]
  · obtain ⟨-, i, u, -, hexec, -⟩ := step_eq_next hstep
    obtain ⟨-, -, -, -, hen⟩ := State.gate_eq_next (exec_eq_next hexec).1
    simp [enabled_of_realOrV86 hm] at hen

/-- Settles O31: `OSXSAVE` and `XCR0[2:1]` are of `L_AvxEnabled`. -/
theorem udUnlessStateEnabled : Obligations.UdUnlessStateEnabled := by
  intro i s ha hoff
  refine ha.exec_of_not_avx fun ⟨_, hosxsave, hxcr0⟩ => ?_
  rcases hoff with h | h
  · simp [hosxsave] at h
  · exact h hxcr0

/-- Settles O32: `CPUID_AVX` is of `L_AvxEnabled`. -/
theorem udWithoutAvxFlag : Obligations.UdWithoutAvxFlag := by
  intro i s ha hcpuid
  exact ha.exec_of_not_avx fun havx => by simp [havx.1] at hcpuid

/-- Settles O33: `enabled` answers `#NM`, and the operand is not read. -/
theorem nmWhenTaskSwitched : Obligations.NmWhenTaskSwitched := by
  intro i s ha havx hem hts
  rw [exec_of_refusal_none ha.refusal, enabled_of_avx ha.mode havx, hem, hts]
  rfl

/-- Settles O34: `enabled` refuses before it looks at `CR0.TS`. -/
theorem emulationBitIsRefused : Obligations.EmulationBitIsRefused := by
  intro i s ha havx hem
  rw [exec_of_refusal_none ha.refusal, enabled_of_avx ha.mode havx, hem]
  rfl

/-! ### The privilege level (R120) -/

/-- The state at another privilege level. -/
def State.withCpl (s : State) (c : BitVec 2) : State := { s with cpl := c }

theorem State.operandSpecial_of_reg {i : Instr} {r : RegNum} (h : i.rm = .reg r) (s : State) :
    s.operandSpecial i = false := by
  rw [State.operandSpecial, h]

/-- Of the checks before the operand only the one for memory that is not ordinary asks the oracle, which knows the privilege
level (R42). -/
theorem State.gate_withCpl {i : Instr} {r : RegNum} (h : i.rm = .reg r) (s : State) (c : BitVec 2) :
    (s.withCpl c).gate i = s.gate i := by
  have hr : (s.withCpl c).refusal i = s.refusal i := by
    rw [State.refusal, State.refusal, State.operandSpecial_of_reg h, State.operandSpecial_of_reg h]
    rfl
  rw [State.gate, hr]
  rfl

theorem State.readRm_withCpl {i : Instr} {r : RegNum} (h : i.rm = .reg r) (s : State) (c : BitVec 2) :
    (s.withCpl c).readRm i = s.readRm i := by
  rw [State.readRm, State.readRm, h]
  rfl

theorem resultOf_withCpl (i : Instr) (s : State) (c : BitVec 2) (src : Vec) :
    resultOf i (s.withCpl c) src = resultOf i s src := by
  cases i <;> rfl

/-- Settles O29: the checks, the operand and the result are the same, and the two changes leave the privilege level. -/
theorem sameAtEveryPrivilege : Obligations.SameAtEveryPrivilege := by
  intro i s c r h
  change exec i (s.withCpl c) = Out.andThen (exec i s) fun t => .next (t.withCpl c)
  rw [exec_eq_runForm, exec_eq_runForm, runForm, runForm, State.gate_withCpl h, State.readRm_withCpl h]
  cases s.gate i with
  | next _ =>
    cases s.readRm i with
    | next src =>
      simp only [Out.andThen_next, resultOf_withCpl]
      rfl
    | fault e => rfl
    | refused q => rfl
  | fault e => rfl
  | refused q => rfl

end Sys2Proof.Machine
end

section
/-! SUPPORT. What ends a step before an instruction executes: the decoder's verdict on the fetched bytes, and a byte that
cannot be fetched (spec 60_exceptions.md R102, R112, R113, 10_state.md R17). -/

namespace Sys2Proof.Machine

/-- Settles O35: the step is `onVerdict` of the verdict, and a form that runs off the address space is refused by `exec`. -/
theorem verdictDecidesStep : Obligations.VerdictDecidesStep := by
  intro s bytes hquiet htext hfetch
  have hstep {v : Verdict} (hdec : decode s.mode bytes = v) (hv : v ≠ .short) : step s = onVerdict s v :=
    hdec ▸ step_of_fetches hquiet htext hfetch (hdec ▸ hv)
  refine ⟨fun r len hdec => ?_, fun hdec => ?_, fun len hdec hw => ?_, fun len hdec hw => ?_, fun i hdec hw => ?_⟩
  · rw [hstep hdec (by simp), onVerdict]
    cases s.ripWraps len <;> cases r <;> rfl
  · exact hstep hdec (by simp)
  · exact (hstep hdec (by simp)).trans (if_neg (by simp [hw]))
  · exact (hstep hdec (by simp)).trans (if_pos hw)
  · rw [hstep hdec (by simp), onVerdict, exec_of_ripWraps hw, Out.andThen_refused]

/-! ### Bytes that cannot be fetched (R112) -/

/-- Outside `Mode64` an offset past the limit of the code segment is `#GP(0)`. -/
theorem State.fetchByte_past_limit {s : State} {k : Nat} (hm : s.mode ≠ .mode64) (hk : s.ip.toNat + k < 2 ^ 32)
    (hl : s.cs.limit.toNat < s.ip.toNat + k) : s.fetchByte k = .fault (.gp 0) := by
  have hoff : (s.ip + BitVec.ofNat 64 k).toNat = s.ip.toNat + k := toNat_add_ofNat (by omega)
  rw [State.fetchByte, if_neg (by simp [hm]), if_neg (by simpa [hm] using hk), if_pos (by simpa [hm, hoff] using hl),
    raise_eq]

/-- A byte within the address space and the code segment whose page faults is `#PF` with the oracle's code. -/
theorem State.fetchByte_pageFault {s : State} {k : Nat} {c : BitVec 6}
    (hk : s.mode = .mode64 ∧ s.ip.toNat + k < 2 ^ 64 ∧ s.canonical (s.ip + BitVec.ofNat 64 k) = true ∨
      s.mode ≠ .mode64 ∧ s.ip.toNat + k ≤ s.cs.limit.toNat)
    (ht : s.translate (s.codeLinear (s.ip + BitVec.ofNat 64 k)) .fetch = .pageFault c) :
    s.fetchByte k = .fault (.pf (c.setWidth 32) (s.codeLinear (s.ip + BitVec.ofNat 64 k))) := by
  rcases hk with ⟨hm, hend, hcanon⟩ | ⟨hm, hlim⟩
  · rw [State.fetchByte, if_neg (by simpa [hcanon] using fun _ => hend), if_neg (by simp [hm]), if_neg (by simp [hm]), ht]
    rfl
  · have hend : s.ip.toNat + k < 2 ^ 32 := Nat.lt_of_le_of_lt hlim s.cs.limit.isLt
    have hoff : (s.ip + BitVec.ofNat 64 k).toNat = s.ip.toNat + k := toNat_add_ofNat (by omega)
    rw [State.fetchByte, if_neg (by simp [hm]), if_neg (by simpa [hm] using hend), if_neg (by simpa [hm, hoff] using hlim), ht]
    rfl

/-- Settles O44: a byte that the decoder needs and that cannot be fetched ends the step with what its fetch answers. -/
theorem fetchFaultEndsStep : Obligations.FetchFaultEndsStep := by
  intro s bytes hquiet htext hfetch hopen
  obtain ⟨n, hstep⟩ := step_of_open hquiet htext hfetch hopen
  have hfault {f : Fault} (hf : s.fetchByte bytes.length = .fault f) : step s = .fault f := by
    rw [hstep, hf, Out.andThen_fault, Out.andThen_fault]
  refine ⟨fun f => hfault, fun r hr => ?_, fun hm hend hlim => ?_, fun c hk ht => ?_⟩
  · rw [hstep, hr, Out.andThen_refused, Out.andThen_refused]
  · have hm64 : s.mode ≠ .mode64 := by simp [hm]
    rw [← State.ip_toNat_of_not_mode64 hm64] at hend hlim
    exact hfault (State.fetchByte_past_limit hm64 hend hlim)
  · refine hfault (State.fetchByte_pageFault (hk.imp (fun h => ?_) fun ⟨hm, hlim⟩ => ?_) ht)
    · rwa [State.ip_of_mode64 h.1]
    · have hm64 : s.mode ≠ .mode64 := by simp [hm]
      exact ⟨hm64, State.ip_toNat_of_not_mode64 hm64 ▸ hlim⟩

end Sys2Proof.Machine
end

section
/-! SUPPORT. How far a run goes: every step raises `rip` by an instruction's length (spec 70_reset_and_hazards.md R136,
30_encoding.md R74). -/

namespace Sys2Proof.Machine

/-- From a state whose `rip` is all significant (R17), a step raises `rip` by 5 to 13 and leaves the text's end, the mode
and the significance of `rip` as they were. -/
theorem step_raises_rip {s t : State} (hip : s.mode ≠ .mode64 → s.rip.toNat < 2 ^ 32) (h : step s = .next t) :
    t.textEnd = s.textEnd ∧ s.rip.toNat + 5 ≤ t.rip.toNat ∧ t.rip.toNat ≤ s.rip.toNat + 13 ∧
      (t.mode ≠ .mode64 → t.rip.toNat < 2 ^ 32) := by
  obtain ⟨i, r, hexec, rfl⟩ := step_eq_complete h
  obtain ⟨hmin, hmax⟩ := Instr.ilen_bounds i
  have hrip := exec_rip_toNat hexec
  have hend := (ip_bound_of_exec hexec).2
  rw [State.ip_eq_rip hip] at hrip hend
  rw [State.envAdvance_rip]
  exact ⟨rfl, by omega, by omega, fun hm => hrip ▸ hend hm⟩

/-- A run of `k` steps from a state whose `rip` is all significant covers `5k` to `13k` bytes and ends at `END`. -/
theorem RunEnds.bounds {k : Nat} {s t : State} (hip : s.mode ≠ .mode64 → s.rip.toNat < 2 ^ 32) (h : RunEnds k s t) :
    s.rip.toNat + 5 * k ≤ s.textEnd.toNat ∧ s.textEnd.toNat ≤ s.rip.toNat + 13 * k ∧ t.rip = s.textEnd := by
  induction k generalizing s with
  | zero =>
    obtain ⟨rfl, hend⟩ := h
    simp [hend]
  | succ k ih =>
    obtain ⟨-, u, hstep, hrun⟩ := h
    obtain ⟨htext, hmin, hmax, hipu⟩ := step_raises_rip hip hstep
    obtain ⟨hlo, hhi, hend⟩ := ih hipu hrun
    rw [htext] at hlo hhi hend
    exact ⟨by omega, by omega, hend⟩

/-- Settles O57: `rip` is all significant in `Mode64`, and under the invariant. -/
theorem runLengthBounded : Obligations.RunLengthBounded := by
  intro k s t hs hrun
  exact hrun.bounds (hs.elim (fun hm hne => absurd hm hne) Inv.ip)

end Sys2Proof.Machine
end

section
/-! SUPPORT. A launched program runs to its end (spec 70_reset_and_hazards.md R132, R136): what is left of it at `rip` can be
fetched and read, and one step leaves the rest in the same way. -/

namespace Sys2Proof.Machine

/-! ### The program text (R48, R52) -/

theorem State.mem_textPhys {s : State} {a : Addr} :
    a ∈ s.textPhys ↔ ∃ k < s.textEnd.toNat - s.textBase.toNat,
      s.translate (s.codeLinear (s.textBase + BitVec.ofNat 64 k)) .fetch = .phys a := by
  simp only [State.textPhys, List.mem_filterMap, List.mem_range]
  refine exists_congr fun k => and_congr_right fun _ => ?_
  split <;> simp_all

/-- An offset between `BASE` and `END` has its byte among those of the text. -/
theorem State.mem_textPhys_of_translate {s : State} {off a : Addr} (hlo : s.textBase.toNat ≤ off.toNat)
    (hhi : off.toNat < s.textEnd.toNat) (h : s.translate (s.codeLinear off) .fetch = .phys a) : a ∈ s.textPhys := by
  refine State.mem_textPhys.mpr ⟨off.toNat - s.textBase.toNat, by omega, ?_⟩
  have hoff : s.textBase + BitVec.ofNat 64 (off.toNat - s.textBase.toNat) = off := by
    apply BitVec.eq_of_toNat_eq
    rw [toNat_add_ofNat] <;> omega
  rwa [hoff]

theorem textUnwritten_iff {s : State} :
    TextUnwritten s ↔ ∀ batch ∈ s.env, ∀ w ∈ batch, w.addr ∉ s.textPhys := by
  simp [TextUnwritten, State.textWritten]

/-- The batch of a step is one of those to come, or empty. -/
theorem State.mem_batch {s : State} {w : EnvWrite} (h : w ∈ s.batch) : ∃ batch ∈ s.env, w ∈ batch := by
  rw [State.batch] at h
  cases he : s.env with
  | nil => simp [he] at h
  | cons b bs => exact ⟨b, List.mem_cons_self, by simpa [he] using h⟩

/-- The batch of a step leaves the text's bytes alone (R52). -/
theorem TextUnwritten.read_applyWrites {s : State} (h : TextUnwritten s) (hwf : s.mem.wf) {a : Addr}
    (ha : a ∈ s.textPhys) : (s.mem.applyWrites s.batch).read a.toNat = s.mem.read a.toNat := by
  refine Memory.read_applyWrites_of_ne hwf _ _ fun w hw heq => ?_
  obtain ⟨batch, hb, hwb⟩ := State.mem_batch hw
  exact textUnwritten_iff.mp h batch hb w hwb (BitVec.eq_of_toNat_eq heq ▸ ha)

/-- The batches that are still to come after a step leave the text alone too. -/
theorem TextUnwritten.envAdvance {s : State} (h : TextUnwritten s) : TextUnwritten s.envAdvance :=
  textUnwritten_iff.mpr fun batch hb => textUnwritten_iff.mp h batch (List.mem_of_mem_tail hb)

/-! ### Fetching after a step -/

/-- After an instruction of `n` bytes the bytes from the `n`-th on are fetched. -/
theorem State.fetchByte_complete {s : State} {i : Instr} {r : Vec} {k : Nat} (hend : s.ip.toNat + i.ilen < 2 ^ 64)
    (hip : (s.complete i r).ip = s.nextIp i.ilen) : (s.complete i r).fetchByte k = s.fetchByte (i.ilen + k) := by
  have hoff : s.nextIp i.ilen + BitVec.ofNat 64 k = s.ip + BitVec.ofNat 64 (i.ilen + k) := by
    rw [State.nextIp, BitVec.add_assoc, ← BitVec.ofNat_add]
  simp only [State.fetchByte, hip, hoff, State.nextIp_toNat hend, Nat.add_assoc]
  rfl

/-- A byte of the text is fetched alike before and after the batch of a step lands (R52). -/
theorem State.fetchByte_envAdvance {s : State} {k : Nat} (hu : TextUnwritten s) (hwf : s.mem.wf)
    (hlo : s.textBase.toNat ≤ (s.ip + BitVec.ofNat 64 k).toNat)
    (hhi : (s.ip + BitVec.ofNat 64 k).toNat < s.textEnd.toNat) : s.envAdvance.fetchByte k = s.fetchByte k := by
  have htr : s.envAdvance.translate (s.envAdvance.codeLinear (s.envAdvance.ip + BitVec.ofNat 64 k)) .fetch
      = s.translate (s.codeLinear (s.ip + BitVec.ofNat 64 k)) .fetch := rfl
  cases ht : s.translate (s.codeLinear (s.ip + BitVec.ofNat 64 k)) .fetch with
  | phys a =>
    have hread := hu.read_applyWrites hwf (State.mem_textPhys_of_translate hlo hhi ht)
    simp only [State.fetchByte, htr, ht, State.envAdvance_mem, hread]
    rfl
  | pageFault c =>
    simp only [State.fetchByte, htr, ht]
    rfl

theorem Fetches.left {s : State} {xs ys : List Byte} (h : Fetches s (xs ++ ys)) : Fetches s xs := by
  intro k hk
  rw [h k (by rw [List.length_append]; omega), List.getElem_append_left hk]

theorem Fetches.right {s : State} {xs ys : List Byte} (h : Fetches s (xs ++ ys)) {k : Nat} (hk : k < ys.length) :
    s.fetchByte (xs.length + k) = .next ys[k] := by
  rw [h _ (by rw [List.length_append]; omega), List.getElem_append_right (Nat.le_add_right _ _)]
  simp

/-- An instruction whose bytes are fetched and end within the address space is not refused for its place (R17). -/
theorem Fetches.not_ripWraps {s : State} {bytes : List Byte} (hf : Fetches s bytes) (hm : LMode s)
    (h64 : s.ip.toNat + bytes.length < 2 ^ 64) (h32 : s.mode ≠ .mode64 → s.ip.toNat + bytes.length < 2 ^ 32) :
    s.ripWraps bytes.length = false := by
  refine Bool.eq_false_iff.mpr fun hw => ?_
  rcases hm with hm | hm
  · rcases (State.ripWraps_mode64 hm).mp hw with hend | ⟨k, hk, hc⟩
    · rw [State.ip_of_mode64 hm] at h64
      omega
    · obtain ⟨hcanon, -⟩ := State.fetchByte_eq_next (hf k hk)
      rw [← State.ip_of_mode64 hm, hcanon hm] at hc
      contradiction
  · have hne : s.mode ≠ .mode64 := by simp [hm]
    have hend := (State.ripWraps_mode32 hm).mp hw
    have hlt := h32 hne
    rw [State.ip_toNat_of_not_mode64 hne] at hlt
    omega

/-! ### The operand -/

/-- An operand that is a register, or memory that can be read, has a value, whatever other agents write meanwhile (R46). -/
theorem State.readRm_of_readable {i : Instr} {s : State} (h : ∀ m, i.rm = .mem m → ∃ phys, Readable i m s phys) :
    ∃ src, s.readRm i = .next src := by
  rw [State.readRm]
  cases hrm : i.rm with
  | reg r => exact ⟨_, rfl⟩
  | mem m =>
    obtain ⟨phys, hread⟩ := h m hrm
    exact ⟨_, hread.readMemory⟩

/-! ### What is left of the program -/

/-- On its way through a program, with `p` left of it: the premises of `Launched`, with `rip` at the first instruction of `p`
in place of `BASE`, and the operands of `p` can be read. -/
structure Remaining (p : Program) (s : State) : Prop where
  inv       : Inv s
  mode      : LMode s
  avx       : LAvxEnabled s
  noTs      : LNoTs s
  quiet     : LQuiet s
  encodings : ∀ c ∈ p, decode s.mode c.2 = .form c.1 ∧ c.2.length = c.1.ilen
  fetched   : Fetches s p.bytes
  base      : s.textBase.toNat ≤ s.rip.toNat
  ends      : s.textEnd.toNat = s.rip.toNat + (p.map fun c => c.1.ilen).sum
  space     : s.mode ≠ .mode64 → s.textEnd.toNat < 2 ^ 32
  unwritten : TextUnwritten s
  mem       : LMem p s
  operands  : OperandsReadable p s

theorem Launched.remaining {p : Program} {s : State} (h : Launched p s) (hinv : Inv s) (ho : OperandsReadable p s) :
    Remaining p s where
  inv := hinv
  mode := h.mode
  avx := h.avx
  noTs := h.noTs
  quiet := h.quiet
  encodings := h.text.encodings
  fetched := by
    have hstart : s.setRip s.textBase = s := by rw [← h.start]; rfl
    exact hstart ▸ h.text.fetched
  base := h.start ▸ Nat.le_refl _
  ends := h.start ▸ h.text.ends
  space := h.text.space
  unwritten := h.text.unwritten
  mem := h.mem
  operands := ho

section
variable {i : Instr} {bytes : List Byte} {p : Program} {s : State} (h : Remaining ((i, bytes) :: p) s)
include h

theorem Remaining.length_eq : bytes.length = i.ilen :=
  (h.encodings _ List.mem_cons_self).2

/-- The first instruction and what follows it end at `END`. -/
theorem Remaining.ends_cons : s.textEnd.toNat = s.ip.toNat + i.ilen + (p.map fun c => c.1.ilen).sum := by
  rw [State.ip_eq_rip h.inv.ip, h.ends, List.map_cons, List.sum_cons, Nat.add_assoc]

theorem Remaining.fetches_append : Fetches s (bytes ++ Program.bytes p) :=
  h.fetched

/-- The first instruction is enabled, and no check before its operand finds anything. -/
theorem Remaining.ready : Ready i s := by
  have hend := h.ends_cons
  have hbits := s.textEnd.isLt
  have hlen := h.length_eq
  have hplace := h.fetches_append.left.not_ripWraps h.mode (by omega) fun hm => by
    have := h.space hm
    omega
  obtain ⟨hdec, -⟩ := h.encodings _ List.mem_cons_self
  exact ⟨⟨h.mode, (decodedFormIsWellFormed _ _ _ hdec).1, hlen ▸ hplace, h.mem.1⟩, h.avx, h.noTs⟩

/-- The first instruction's step completes. -/
theorem Remaining.step_eq : ∃ r, step s = .next (s.complete i r).envAdvance := by
  obtain ⟨src, hsrc⟩ := State.readRm_of_readable h.operands.1
  obtain ⟨hdec, -⟩ := h.encodings _ List.mem_cons_self
  refine ⟨resultOf i s src, ?_⟩
  rw [stepRunsDecodedInstruction s bytes i h.quiet h.unwritten h.fetches_append.left hdec,
    exec_of_parts h.ready.gate hsrc, Out.andThen_next]

/-- Past the first instruction lies the address of the next. -/
theorem Remaining.nextIp_eq : (s.nextIp i.ilen).toNat = s.ip.toNat + i.ilen := by
  have hend := h.ends_cons
  have hbits := s.textEnd.isLt
  exact State.nextIp_toNat (by omega)

/-- The bytes of the other instructions are fetched after the step: `rip` stands at them, and no agent wrote them. -/
theorem Remaining.fetches_next (r : Vec) : Fetches (s.complete i r).envAdvance p.bytes := by
  intro k hk
  have hlen : (Program.bytes p).length = (p.map fun c => c.1.ilen).sum :=
    Program.bytes_length p fun c hc => (h.encodings c (List.mem_cons_of_mem _ hc)).2
  have hnext := h.nextIp_eq
  have hend := h.ends_cons
  have hbits := s.textEnd.isLt
  have hbase := h.base
  rw [← State.ip_eq_rip h.inv.ip] at hbase
  have hip : (s.complete i r).ip = s.nextIp i.ilen :=
    State.ip_eq_rip fun hm => by
      have := h.space hm
      rw [State.complete_rip]
      omega
  have hoff : ((s.complete i r).ip + BitVec.ofNat 64 k).toNat = s.ip.toNat + i.ilen + k := by
    rw [hip, ← hnext]
    exact toNat_add_ofNat (by omega)
  calc (s.complete i r).envAdvance.fetchByte k
      = (s.complete i r).fetchByte k :=
        State.fetchByte_envAdvance h.unwritten h.inv.mem (by rw [hoff, State.complete_textBase]; omega)
          (by rw [hoff, State.complete_textEnd]; omega)
    _ = s.fetchByte (i.ilen + k) := State.fetchByte_complete (by omega) hip
    _ = .next (Program.bytes p)[k] := h.length_eq ▸ h.fetches_append.right hk

/-- The first instruction's step completes and leaves the rest of the program. -/
theorem Remaining.step_next : ∃ t, step s = .next t ∧ Remaining p t := by
  obtain ⟨r, hstep⟩ := h.step_eq
  have hrip : (s.complete i r).envAdvance.rip.toNat = s.ip.toNat + i.ilen := h.nextIp_eq
  refine ⟨_, hstep, ?_⟩
  exact {
    inv := stepKeepsInvariant _ _ h.inv hstep
    mode := h.mode
    avx := h.avx
    noTs := h.noTs
    quiet := h.quiet
    encodings := fun c hc => h.encodings c (List.mem_cons_of_mem _ hc)
    fetched := h.fetches_next r
    base := by
      rw [hrip, State.ip_eq_rip h.inv.ip]
      exact Nat.le_add_right_of_le h.base
    ends := hrip ▸ h.ends_cons
    space := h.space
    unwritten := h.unwritten.envAdvance
    mem := h.mem.2.afterOthers ..
    operands := h.operands.2.afterOthers .. }

/-- The first instruction is not at `END`: it has at least 5 bytes (R74). -/
theorem Remaining.rip_ne_end : s.rip ≠ s.textEnd := by
  intro heq
  have hend := h.ends_cons
  rw [State.ip_eq_rip h.inv.ip, heq] at hend
  have hmin := (Instr.ilen_bounds i).1
  omega

end

/-- What is left of a program is run to the end, one step for each instruction. -/
theorem Remaining.runEnds {p : Program} {s : State} (h : Remaining p s) : ∃ t, RunEnds p.length s t := by
  induction p generalizing s with
  | nil => exact ⟨s, rfl, (BitVec.eq_of_toNat_eq h.ends).symm⟩
  | cons c p ih =>
    obtain ⟨u, hstep, hrest⟩ := h.step_next
    obtain ⟨t, hrun⟩ := ih hrest
    exact ⟨t, h.rip_ne_end, u, hstep, hrun⟩

/-- Settles O55, by induction on the program: at the launch all of it is left. -/
theorem programRunsToEnd : Obligations.ProgramRunsToEnd := by
  intro p s hinv hlaunched hread
  obtain ⟨t, hrun⟩ := (hlaunched.remaining hinv hread).runEnds
  exact ⟨t, hlaunched.start, hrun⟩

end Sys2Proof.Machine
end

section
/-! SUPPORT. What ends a step before its fetch (spec 60_exceptions.md R124, 20_memory.md R52), the segment limit check of
`Mode32` (20_memory.md R41), canonical memories (20_memory.md R35), and the selector's mapping (40_vpermilps.md R85). -/

namespace Sys2Proof.Machine

/-! ### The launch premises (R52, R124) -/

/-- A premise that fails refuses the run before anything is fetched. -/
theorem step_of_premises_refused {s : State} {r : Refusal} (h : premises s = .refused r) : step s = .refused r := by
  rw [step, h, Out.andThen_refused]

/-- Settles O41: the debug premise stands before every other, and `TF` is bit 8. -/
theorem debugIsRefused : Obligations.DebugIsRefused := by
  intro s h
  have hdebug : (s.breakpointArmed || s.tf) = true := by simpa [State.tf] using h
  exact step_of_premises_refused (by rw [premises, if_pos hdebug])

theorem premises_of_textWritten {s : State} (hq : LQuiet s) (h : ¬ TextUnwritten s) :
    premises s = .refused .textWritten := by
  obtain ⟨hbreak, htf⟩ := hq
  have htext : s.textWritten = true := by simpa [TextUnwritten] using h
  simp [premises, hbreak, htf, htext]

/-- Settles O42: the address written is one of the text's bytes. -/
theorem textWriteIsRefused : Obligations.TextWriteIsRefused := by
  intro s batch w k hquiet hbatch hw hk ht
  have hwritten : ¬ TextUnwritten s := fun hu =>
    textUnwritten_iff.mp hu batch hbatch w hw (State.mem_textPhys.mpr ⟨k, hk, ht⟩)
  exact step_of_premises_refused (premises_of_textWritten hquiet hwritten)

/-! ### The segment check (R41) -/

/-- The `n` offsets from `a` on are all below `b` when the last one is. -/
theorem offsets_lt_iff {a n b : Nat} (hn : 0 < n) : (∀ k < n, a + k < b) ↔ a + n ≤ b := by
  refine ⟨fun h => ?_, fun h k hk => by omega⟩
  have hlast := h (n - 1) (by omega)
  omega

theorem State.segCheck_iff (s : State) (g : Seg) (ea : Addr) {n : Nat} (hn : 0 < n) :
    s.segCheck g ea n = true ↔ (s.segReg g).usable = true ∧ (s.segReg g).readable = true ∧
      ∀ k < n, ea.toNat + k < 2 ^ 32 ∧ ea.toNat + k ≤ (s.segReg g).limit.toNat := by
  simp only [State.segCheck, Bool.and_eq_true, decide_eq_true_eq, and_assoc, ← offsets_lt_iff hn, Nat.lt_add_one_iff,
    forall₂_and]

theorem State.checkAddress_of_segCheck {s : State} {g : Seg} {ea : Addr} {n : Nat} (hm : s.mode ≠ .mode64)
    (h : s.segCheck g ea n = false) : s.checkAddress g ea n = .fault (segFault g) := by
  rw [State.checkAddress, if_neg hm, if_neg (by simp [h]), raise_eq]

/-- Settles O37: the last byte decides the segment check, and a failed check ends the read. -/
theorem segmentCheckFault : Obligations.SegmentCheckFault := by
  refine ⟨fun s g ea n => s.segCheck_iff g ea, fun i m s hready hrm hmode hseg => ?_⟩
  rw [exec_eq_readMemory hready hrm, State.readMemory, State.checkAddress_of_segCheck (by simp [hmode]) hseg]
  rfl

/-! ### Canonical memories (R35) -/

theorem Memory.pairwise_of_wf {m : Memory} (h : m.wf) : m.Pairwise (InvImage (· < ·) Prod.fst) :=
  (List.pairwise_map (f := Prod.fst)).mp h.1

/-- A canonical memory lists exactly the bytes that differ from what an unlisted address reads as. -/
theorem Memory.mem_iff_read {m : Memory} (h : m.wf) {a : Nat} {w : Byte} :
    (a, w) ∈ m ↔ w ≠ Memory.unlisted ∧ m.read a = w := by
  induction m with
  | nil => simp [Memory.read, eq_comm]
  | cons c m ih =>
    obtain ⟨b, u⟩ := c
    obtain ⟨hlt, hu, hm⟩ := Memory.wf_cons.mp h
    rw [List.mem_cons, ih hm, Memory.read]
    by_cases hb : b = a
    · subst hb
      rw [if_pos rfl, Memory.read_of_below hlt]
      simp only [Prod.mk.injEq, true_and]
      constructor
      · rintro (rfl | ⟨hw, rfl⟩)
        · exact ⟨hu, rfl⟩
        · exact absurd rfl hw
      · exact fun ⟨_, he⟩ => .inl he.symm
    · simp [hb, Ne.symm hb]

/-- Settles O49: both list the same bytes, at rising addresses. -/
theorem canonicalMemoryIsUnique : Obligations.CanonicalMemoryIsUnique := by
  intro m m' h h' hread
  refine (Memory.pairwise_of_wf h).eq_of_mem_iff (Memory.pairwise_of_wf h') fun ⟨a, w⟩ => ?_
  rw [Memory.mem_iff_read h, Memory.mem_iff_read h', hread]

/-! ### The selector (R85) -/

/-- Settles O19: one arm for each of the four selectors. -/
theorem select4PicksElement : Obligations.Select4PicksElement := by
  intro src c
  obtain rfl | rfl | rfl | rfl : c = 0#2 ∨ c = 1#2 ∨ c = 2#2 ∨ c = 3#2 := by revert c; decide
  all_goals rfl

end Sys2Proof.Machine
end
